-- ==== Sys2Proof/Word.lean ====
section
/-! DEFINITION. The widths of this hardware (spec 00_scope.md R4, R7; 30_encoding.md R41). Every value is unsigned. -/

namespace Sys2Proof

/-- A 32-bit value: a seed, a checksum, a table word, the accumulator (R4, R7). -/
abbrev Word := BitVec 32

/-- A data byte or a table index (R4). -/
abbrev Byte := BitVec 8

/-- The 3-bit opcode field of a command (R41). -/
abbrev Op := BitVec 3

/-- A 35-bit command word, the opcode above the argument (R41). -/
abbrev CmdWord := BitVec 35

end Sys2Proof
end

