-- ==== Sys2Proof/Syntax.lean ====
section
/-! DEFINITION. The commands (30_encoding.md R42), the pseudo-instructions (R51) and the assembler's lines (R50) as syntax. -/

namespace Sys2Proof

/-- The five commands, one constructor per row of the opcode map (R42). -/
inductive Instr where
  /-- `INIT`: construct the table (R58). -/
  | init
  /-- `SEED s`: start or continue a checksum (R64). -/
  | seed (s : Word)
  /-- `BYTE b`: fold one byte into the accumulator (R65). -/
  | byte (b : Byte)
  /-- `READ`: respond the checksum value (R68). -/
  | read
  /-- `ROMRD i`: respond one table word (R61). -/
  | romrd (i : Byte)
deriving DecidableEq, Repr

/-- The pseudo-instructions (R51). -/
inductive Pseudo where
  | update (seed : Word) (bytes : List Byte)
  | bytes (text : List Char)
  | crc32 (bytes : List Byte)
  | save
  | restore (v : Word)
deriving DecidableEq, Repr

/-- One assembler line as written, before its operand's range is checked (R50). -/
inductive AsmLine where
  | init
  | seed (v : Nat)
  | byte (b : Nat)
  /-- `BYTE 'c'`: a single printable ASCII character stands for its code. -/
  | byteChar (c : Char)
  | read
  | romrd (i : Nat)
deriving DecidableEq, Repr

end Sys2Proof
end

