-- ==== Sys2Proof/WellFormed.lean ====
section
/-! DEFINITION. Which terms of the syntax stand for a command: operand ranges (30_encoding.md R43, R50). -/

namespace Sys2Proof

/-- Every `Instr` is well formed: its operands' types are exactly the ranges R43 allows (any 32-bit seed, any byte, any
index), so there is nothing left to check. -/
def Instr.wellFormed : Instr → Bool
  | .init => true
  | .seed _ => true
  | .byte _ => true
  | .read => true
  | .romrd _ => true

/-- A printable ASCII character (R50). -/
def printable (c : Char) : Bool := 0x20 ≤ c.toNat && c.toNat ≤ 0x7E

/-- The operand ranges of R50: "An operand out of range is an assembly error, not a command." -/
def AsmLine.wellFormed : AsmLine → Bool
  | .init => true
  | .seed v => v ≤ 0xFFFFFFFF
  | .byte b => b ≤ 0xFF
  | .byteChar c => printable c
  | .read => true
  | .romrd i => i ≤ 0xFF

/-- `BYTES "s"` takes an ASCII string (R51); every other pseudo-instruction's operands are in range by their types. -/
def Pseudo.wellFormed : Pseudo → Bool
  | .update _ _ => true
  | .bytes text => text.all (fun c => c.toNat < 0x80)
  | .crc32 _ => true
  | .save => true
  | .restore _ => true

end Sys2Proof
end

