-- ==== Sys2Proof/Decode.lean ====
section
/-! DEFINITION. The command word (30_encoding.md R41 to R47): decoder, encoder, and the opcode map in match/mask form. -/

namespace Sys2Proof

/-- Why a word decodes to `Reserved` (R44). -/
inductive Reserved where
  /-- `op` is 5, 6 or 7 (R46). -/
  | opcode
  /-- A must-be-zero argument bit is set (R47). -/
  | argument
deriving DecidableEq, Repr

/-- `cmd[34:32]` (R41). -/
def opField (w : CmdWord) : Op := w.extractLsb' 32 3

/-- `cmd[31:0]` (R41). -/
def argField (w : CmdWord) : Word := w.extractLsb' 0 32

/-- `{op, arg}` (R39, R41). -/
def commandWord (op : Op) (arg : Word) : CmdWord := op ++ arg

/-- `arg[7:0]`, the data byte or the index (R43). -/
def argByte (arg : Word) : Byte := arg.extractLsb' 0 8

/-- `arg[31:8]`, reserved in BYTE and ROMRD (R47). -/
def argHigh (arg : Word) : BitVec 24 := arg.extractLsb' 8 24

/-- R44's `decode`, with `Reserved` split by R46 and R47. -/
def decode (w : CmdWord) : Except Reserved Instr :=
  if opField w = 0 then
    if argField w = 0 then .ok .init else .error .argument
  else if opField w = 1 then .ok (.seed (argField w))
  else if opField w = 2 then
    if argHigh (argField w) = 0 then .ok (.byte (argByte (argField w))) else .error .argument
  else if opField w = 3 then
    if argField w = 0 then .ok .read else .error .argument
  else if opField w = 4 then
    if argHigh (argField w) = 0 then .ok (.romrd (argByte (argField w))) else .error .argument
  else .error .opcode

/-- The encodings of R42 and R50. -/
def encode : Instr → CmdWord
  | .init => commandWord 0 0
  | .seed s => commandWord 1 s
  | .byte b => commandWord 2 (b.setWidth 32)
  | .read => commandWord 3 0
  | .romrd i => commandWord 4 (i.setWidth 32)

/-- One row of R44's match/mask form: a word `w` selects the row when `w AND mask = pattern`. -/
structure EncodingRow where
  mnemonic : String
  mask : CmdWord
  pattern : CmdWord
deriving DecidableEq, Repr

/-- R44: "a word `w` selects the row when `w AND mask = match`". -/
def EncodingRow.selects (r : EncodingRow) (w : CmdWord) : Bool := w &&& r.mask = r.pattern

/-- The row of each command in R44's match/mask form. -/
def Instr.row : Instr → EncodingRow
  | .init => ⟨"INIT", 0x7FFFFFFFF#35, 0x000000000#35⟩
  | .seed _ => ⟨"SEED", 0x700000000#35, 0x100000000#35⟩
  | .byte _ => ⟨"BYTE", 0x7FFFFFF00#35, 0x200000000#35⟩
  | .read => ⟨"READ", 0x7FFFFFFFF#35, 0x300000000#35⟩
  | .romrd _ => ⟨"ROMRD", 0x7FFFFFF00#35, 0x400000000#35⟩

/-- R44's five rows, in the opcode map's order. -/
def encodingTable : List EncodingRow :=
  [Instr.row .init, Instr.row (.seed 0), Instr.row (.byte 0), Instr.row .read, Instr.row (.romrd 0)]

/-- The number `w` of at most `nbits` bits as a 35-bit command word, if it is one. Bits from 35 upwards are no part of a
command (R41), so a number that has one set names no command (log entry 13). -/
def cmdWordOf (nbits w : Nat) : Option CmdWord :=
  if w < 2 ^ nbits ∧ w < 2 ^ 35 then some (BitVec.ofNat 35 w) else none

/-- The command the decoder reads from the opcode table's number `w`. A command crosses the port as one 35-bit word, bit 0
least significant (R7, R41), so the table's numbering is the port's own. -/
def decodeTableWord (nbits w : Nat) : Option Instr :=
  match cmdWordOf nbits w with
  | none => none
  | some c =>
    match decode c with
    | .ok i => some i
    | .error _ => none

end Sys2Proof
end

