-- ==== Sys2Proof/Config.lean ====
section
/-! DEFINITION. What is fixed for the machine (00_scope.md R4), the open parameter's default (R5) and the free values. -/

namespace Sys2Proof

/-- `POLY`, the hardwired polynomial constant in reflected form (R4, R11). -/
def Config.poly : Word := 0xEDB88320#32

/-- `TABLE_DEPTH` (R4). -/
def Config.tableDepth : Nat := 256

/-- `STEPS_PER_ENTRY` (R4). -/
def Config.stepsPerEntry : Nat := 8

/-- `XOR_IN`, the complement at entry (R4, R74). -/
def Config.xorIn : Word := 0xFFFFFFFF#32

/-- `XOR_OUT`, the complement at exit (R4, R74). -/
def Config.xorOut : Word := 0xFFFFFFFF#32

/-- The recommended default of the OPEN parameter `TABLE_RESET_BUILT` (R5, R21).
DESIGN CHOICE (log entry 6), safe: only `State.reset` uses it, and every statement quantifies over the parameter. -/
def Config.tableResetBuilt : Bool := false

/-- The `n`-th unspecified word the machine meets (93_implementation_defined.md U1, U2, U3): a free value with no body.
DESIGN CHOICE (log entries 3, 4, 11), safe: nothing can be proved of its value. -/
opaque Config.freeWord (n : Nat) : Word

end Sys2Proof
end

