-- ==== Sys2Proof/Machine/Table.lean ====
section
/-! DEFINITION. The lookup table: its storage (10_state.md R14, 20_memory.md R23) and the functions that define its contents
(40_table_builder.md R53 to R57). -/

namespace Sys2Proof.Machine

/-- `T` as (index, word) pairs, indexes strictly rising; an index that is not listed holds an unspecified word
(R21; log entry 7). The unit of addressing is the 32-bit word (R23). -/
abbrev Table := List (Nat × Word)

/-- The word listed at index `i`, if any. -/
def Table.read : Table → Nat → Option Word
  | [], _ => none
  | (a, v) :: t, i => if a = i then some v else Table.read t i

/-- `T[i] <- v` (R9); keeps the canonical form. -/
def Table.write : Table → Nat → Word → Table
  | [], i, v => [(i, v)]
  | (a, u) :: t, i, v =>
    if i < a then (i, v) :: (a, u) :: t
    else if i = a then (i, v) :: t
    else (a, u) :: Table.write t i v

/-- The listed indexes rise strictly, from `lo` upwards, and stay below `TABLE_DEPTH`. -/
def Table.risingFrom : Nat → Table → Bool
  | _, [] => true
  | lo, (a, _) :: t => lo ≤ a && a < Config.tableDepth && Table.risingFrom (a + 1) t

/-- The canonical form: equal tables are equal lists. -/
def Table.wf (t : Table) : Bool := Table.risingFrom 0 t

/-- R53, the shift-XOR-multiplexer cell; the select input is bit 0 of `r` before the (logical) shift. -/
def step1 (r : Word) : Word := (r >>> 1) ^^^ (if r.getLsbD 0 then Config.poly else 0#32)

/-- R54, the reference's branchless form of the same cell; the subtraction is modulo 2^32. -/
def step1Mask (r : Word) : Word := (r >>> 1) ^^^ (Config.poly &&& ~~~((r &&& 1#32) - 1#32))

/-- `step1^k` (R8). -/
def step1Times : Nat → Word → Word
  | 0, r => r
  | k + 1, r => step1Times k (step1 r)

/-- R55: `entry(i) = step1^8(zext_32(i))`. -/
def entry (i : Byte) : Word := step1Times Config.stepsPerEntry (i.setWidth 32)

/-- R57: `T[i] <- entry(i)` for each `i` of a list of indexes, in order. -/
def buildFrom (t : Table) (is : List Nat) : Table :=
  is.foldl (fun t i => Table.write t i (entry (BitVec.ofNat 8 i))) t

/-- R57, `build_table`: every index from 0 to 255. -/
@[irreducible] def buildTable (t : Table) : Table := buildFrom t (List.range Config.tableDepth)

/-- The contents at reset: those of a mask ROM when `TABLE_RESET_BUILT` is true, unspecified otherwise (R21, R93). -/
def resetTable (tableResetBuilt : Bool) : Table := if tableResetBuilt then buildTable [] else []

end Sys2Proof.Machine
end

