-- ==== Sys2Proof/Machine/State.lean ====
section
/-! DEFINITION. The state of the machine as plain data (10_state.md R10 to R22), its reset value, and the closed lists of
model-level outcomes (60_exceptions.md R80). -/

namespace Sys2Proof.Machine

/-- The model-level faults, closed by R80. The hardware signals neither (R79): `exec` and `step` go on and record the sticky
mark (`State.faultMark`, R86); `Safety.checkedExec` and `Safety.checkedStep` end in the fault. -/
inductive Fault where
  /-- R81. Recorded by BYTE and ROMRD with `BUILT = 0`, raised by `Safety.checkedExec`. Safe: the chip has no such fault. -/
  | useBeforeInit
  /-- R82. Recorded by BYTE and READ with `ACC = none`, raised by `Safety.checkedExec`. Safe: the chip has no such fault. -/
  | useBeforeSeed
deriving DecidableEq, Repr

/-- Why a step has no meaning. -/
inductive Refusal where
  /-- R83. Raised by `step` on a command word that decodes to `Reserved` (R46, R47). Safe: no claim holds of such a run. -/
  | reservedEncoding
  /-- An instruction with no meaning in this model. Raised by an arm of `exec`; no arm does. Safe. -/
  | notModelled (mnemonic : String)
deriving DecidableEq, Repr

/-- The port at one rising edge of `clk` (R38): what the host drives, and whether the block has completed the command
before and could accept one. That timing is left open (R39, R102), so the schedule is input here (log entry 2); the output
`cmd_ready` itself is `PortEdge.cmdReady`, low while `rst = 1` (R93). -/
structure PortEdge where
  rst : Bool
  cmdValid : Bool
  canAccept : Bool
  cmdOp : Op
  cmdArg : Word
deriving DecidableEq, Repr

/-- The machine. `built`, `acc`, `table` are the hardware's state (R10); `seeded` says whether the spec's `ACC` is `some`
(R20); `tableResetBuilt` is the parameter (R5); `faultMark` is the mark kept outside the hardware state (R22, R86);
`responses` and `edges` are the output and the input of the run (R22, R40, R39); `draws` numbers the free words. -/
structure State where
  /-- `BUILT` (R12). -/
  built : Bool
  /-- `ACC` (R13): before the first SEED the bits the register physically holds, a free value (R20, U3). -/
  acc : Word
  /-- `ACC` is `some acc`, not `none` (R20). -/
  seeded : Bool
  /-- `T` (R14). -/
  table : Table
  /-- `TABLE_RESET_BUILT` (R5); no step writes it. -/
  tableResetBuilt : Bool
  /-- The first fault recorded since reset; sticky (R86). -/
  faultMark : Option Fault
  /-- The response stream, oldest first (R40). -/
  responses : List Word
  /-- The edges still to come at the command port (R38, R39). -/
  edges : List PortEdge
  /-- How many free words have been drawn. -/
  draws : Nat
deriving DecidableEq, Repr

/-- The spec's optional accumulator (R20, R22). -/
def State.accValue (s : State) : Option Word := if s.seeded then some s.acc else none

/-- `POLY` as the machine holds it: hardwired (R11). -/
def State.poly (_ : State) : Word := Config.poly

/-- R21: the state after power-up reset, for either value of `TABLE_RESET_BUILT`. ACC is unspecified: free word 0
(DESIGN CHOICE, log entry 3). Nothing is presented at the port (DESIGN CHOICE, log entry 10). -/
def State.resetWith (tableResetBuilt : Bool) : State where
  built := tableResetBuilt
  acc := Config.freeWord 0
  seeded := false
  table := resetTable tableResetBuilt
  tableResetBuilt := tableResetBuilt
  faultMark := none
  responses := []
  edges := []
  draws := 1

/-- The machine right after reset, at the recommended default of `TABLE_RESET_BUILT` (R21; log entry 6). -/
def State.reset : State := State.resetWith Config.tableResetBuilt

end Sys2Proof.Machine
end

