-- ==== Sys2Proof/Machine/Ops.lean ====
section
/-! DEFINITION. The named operations on the state, and the port (30_encoding.md R39, R40; 70_reset_and_hazards.md R93).
There is no exception entry or return in this hardware (60_exceptions.md R79, R86, R87): what stands in their place is the
sticky fault mark, `State.mark`. -/

namespace Sys2Proof.Machine

/-- Write `ACC` by the engine's datapath; its validity is unchanged (R65). -/
def State.setAcc (s : State) (v : Word) : State := { s with acc := v }

/-- Write `ACC` by SEED: it becomes `some v` (R64). -/
def State.seedAcc (s : State) (v : Word) : State := { s with acc := v, seeded := true }

/-- Replace the table and raise `BUILT`; used only by INIT (R58). -/
def State.setBuiltTable (s : State) (t : Table) : State := { s with table := t, built := true }

/-- `respond(v)`: append one word to the response stream (R9, R40). -/
def State.respond (s : State) (v : Word) : State := { s with responses := s.responses ++ [v] }

/-- Record a fault, if there is one and none is recorded yet; the mark is sticky (R86). -/
def State.mark (s : State) (f : Option Fault) : State := { s with faultMark := s.faultMark.or f }

/-- Take the next free word. -/
def State.draw (s : State) : Word × State := (Config.freeWord s.draws, { s with draws := s.draws + 1 })

/-- The word stored at index `i` of the table, while the table is built (R15, R22). -/
def State.storedWord (s : State) (i : Byte) : Option Word := if s.built then s.table.read i.toNat else none

/-- `RomRead(i)` (R9, R61, R65). With `BUILT = 0` the word is unspecified (R66), "a free 32-bit draw" (R81); so is a word
the table does not list, which no reachable built state has (log entries 4, 7). -/
def State.romRead (s : State) (i : Byte) : Word × State :=
  match s.storedWord i with
  | some w => (w, s)
  | none => s.draw

/-- Reset (R93): the state of R21, the parameter kept, the marks and responses gone. The register and the unbuilt table are
unspecified again, so ACC takes a fresh free word (log entry 3). -/
def State.applyReset (s : State) : State where
  built := s.tableResetBuilt
  acc := Config.freeWord s.draws
  seeded := false
  table := resetTable s.tableResetBuilt
  tableResetBuilt := s.tableResetBuilt
  faultMark := none
  responses := []
  edges := s.edges
  draws := s.draws + 1

/-- What one edge asks of the block (R39, R93). -/
inductive PortEvent where
  | reset
  | command (w : CmdWord)
  | hold
deriving DecidableEq, Repr

/-- `{cmd_op, cmd_arg}` at an edge (R39). -/
def PortEdge.word (e : PortEdge) : CmdWord := commandWord e.cmdOp e.cmdArg

/-- The block's output `cmd_ready` at an edge: "`cmd_ready` is 0 while `rst = 1`" (R93), else as the schedule has it (R39). -/
def PortEdge.cmdReady (e : PortEdge) : Bool := !e.rst && e.canAccept

/-- Reset overrides everything (R85, R93); a command is accepted when `rst = 0`, `cmd_valid = 1` and `cmd_ready = 1`; any
other edge does nothing (R39). -/
def PortEdge.event (e : PortEdge) : PortEvent :=
  if e.rst then .reset
  else if e.cmdValid && e.cmdReady then .command e.word
  else .hold

/-- Take the next edge off the port. With no edge to come the block holds its state: "after the last command it holds its
state and would accept more" (R104). -/
def State.takeEvent (s : State) : PortEvent × State :=
  match s.edges with
  | [] => (.hold, s)
  | e :: es => (e.event, { s with edges := es })

/-- The edge at which a command word is accepted (R39). -/
def PortEdge.accepting (w : CmdWord) : PortEdge where
  rst := false
  cmdValid := true
  canAccept := true
  cmdOp := opField w
  cmdArg := argField w

/-- A reset edge (R93). -/
def PortEdge.resetting : PortEdge where
  rst := true
  cmdValid := false
  canAccept := false
  cmdOp := 0
  cmdArg := 0

/-- The model's refusal of a word that decodes to `Reserved`: one name for both kinds (R80, R83). -/
def refusalOf : Reserved → Refusal
  | .opcode => .reservedEncoding
  | .argument => .reservedEncoding

/-- Present the word `w` as the next accepted command. -/
def State.present (s : State) (w : CmdWord) : State := { s with edges := PortEdge.accepting w :: s.edges }

end Sys2Proof.Machine
end

