-- ==== Sys2Proof/Machine/Flags.lean ====
section
/-! DEFINITION. The hardware has no flags (10_state.md R17). What the model computes beside an effect are the model-level
checks of 60_exceptions.md R80 to R85. -/

namespace Sys2Proof.Machine

/-- R81: a table read with `BUILT = 0`. -/
def State.tableCheck (s : State) : Option Fault := if s.built then none else some .useBeforeInit

/-- R82: an accumulator read with `ACC = none`. -/
def State.accCheck (s : State) : Option Fault := if s.seeded then none else some .useBeforeSeed

/-- R85, BYTE: `UseBeforeInit` is reported before `UseBeforeSeed`. -/
def State.byteCheck (s : State) : Option Fault := s.tableCheck.or s.accCheck

end Sys2Proof.Machine
end

