-- ==== Sys2Proof/Machine/Operands.lean ====
section
/-! DEFINITION. The engine's datapath around `ACC` (41_streaming_engine.md R63) and the operand forms (30_encoding.md R43):
bytes and indexes are used unchanged, never sign-extended. -/

namespace Sys2Proof.Machine

/-- `v[7:0]` (R7). -/
def lowByte (v : Word) : Byte := v.extractLsb' 0 8

/-- R63: `idx = b XOR ACC[7:0]`, the table address. -/
def tableIndex (b : Byte) (acc : Word) : Byte := b ^^^ lowByte acc

/-- R63: `next = word XOR (ACC >> 8)`, a logical shift (R8). -/
def nextAcc (word acc : Word) : Word := word ^^^ (acc >>> 8)

/-- R64: what SEED loads, the value representation complemented (R74). -/
def complementIn (seed : Word) : Word := seed ^^^ Config.xorIn

/-- R68: what READ responds (R74). -/
def complementOut (acc : Word) : Word := acc ^^^ Config.xorOut

/-- R70, `fold`, over the table function `entry`. -/
def crcFold : Word → List Byte → Word
  | c, [] => c
  | c, b :: rest => crcFold (nextAcc (entry (tableIndex b c)) c) rest

/-- R70, `update(buf, seed) = NOT fold(NOT seed, buf)`. -/
def crcUpdate (buf : List Byte) (seed : Word) : Word := complementOut (crcFold (complementIn seed) buf)

/-- R72: each chunk's checksum is the next chunk's seed. -/
def crcUpdateChunks (chunks : List (List Byte)) (seed : Word) : Word :=
  chunks.foldl (fun v chunk => crcUpdate chunk v) seed

end Sys2Proof.Machine
end

