-- ==== Sys2Proof/Machine/Streaming.lean ====
section
/-! DEFINITION. The Streaming Checksum Engine family: SEED, BYTE and READ (41_streaming_engine.md R63 to R68). -/

namespace Sys2Proof.Machine

/-- R64: `ACC <- NOT s`. -/
def execSeed (v : Word) (s : State) : Host.Outcome State Fault Refusal :=
  .next (s.seedAcc (complementIn v))

/-- R65: `ACC <- T[b XOR ACC[7:0]] XOR (ACC >> 8)`. Before INIT the table word is free (R66, R81), before SEED the
accumulator is the free value it holds (R20, R67): the fault of R85's order is recorded and the run goes on (DESIGN CHOICE,
log entries 4 and 5). -/
def execByte (b : Byte) (s : State) : Host.Outcome State Fault Refusal :=
  .next (((s.romRead (tableIndex b s.acc)).2.setAcc (nextAcc (s.romRead (tableIndex b s.acc)).1 s.acc)).mark s.byteCheck)

/-- R68: respond `NOT ACC`, write nothing. Before SEED the response is the complement of a free value and the fault is
recorded (R67, R82; DESIGN CHOICE, log entry 5). -/
def execRead (s : State) : Host.Outcome State Fault Refusal :=
  .next ((s.respond (complementOut s.acc)).mark s.accCheck)

end Sys2Proof.Machine
end

