-- ==== Sys2Proof/Machine/TableBuilder.lean ====
section
/-! DEFINITION. The Table Builder family: INIT and ROMRD (40_table_builder.md R58 to R62). -/

namespace Sys2Proof.Machine

/-- R58: `T[i] <- entry(i)` for every `i`, then `BUILT <- 1`; `ACC` is neither read nor written. -/
def execInit (s : State) : Host.Outcome State Fault Refusal :=
  .next (s.setBuiltTable (buildTable s.table))

/-- R61: respond `T[i]`. With `BUILT = 0` the hardware responds an unspecified word and signals nothing (R80): the fault is
recorded and the run goes on with a free word (R81's alternative; DESIGN CHOICE, log entry 4). -/
def execRomrd (i : Byte) (s : State) : Host.Outcome State Fault Refusal :=
  .next (((s.romRead i).2.respond (s.romRead i).1).mark s.tableCheck)

end Sys2Proof.Machine
end

