-- ==== Sys2Proof/Machine/Dispatch.lean ====
section
/-! DEFINITION. R45's dispatch: one arm per command. -/

namespace Sys2Proof.Machine

def exec (i : Instr) (s : State) : Host.Outcome State Fault Refusal :=
  match i with
  | .init => Sys2Proof.Machine.execInit s
  | .seed v => Sys2Proof.Machine.execSeed v s
  | .byte b => Sys2Proof.Machine.execByte b s
  | .read => Sys2Proof.Machine.execRead s
  | .romrd x => Sys2Proof.Machine.execRomrd x s

end Sys2Proof.Machine
end

