-- ==== Sys2Proof/Machine/Step.lean ====
section
/-! DEFINITION. One step: one edge of the port (30_encoding.md R39, R45; 70_reset_and_hazards.md R93). -/

namespace Sys2Proof.Machine

/-- R45 on an accepted command word. -/
def runWord (w : CmdWord) (s : State) : Host.Outcome State Fault Refusal :=
  match decode w with
  | .ok i => exec i s
  | .error r => .refused (refusalOf r)

/-- One edge: reset, an accepted command, or nothing. -/
def step (s : State) : Host.Outcome State Fault Refusal :=
  match s.takeEvent.1 with
  | .reset => .next s.takeEvent.2.applyReset
  | .command w => runWord w s.takeEvent.2
  | .hold => .next s.takeEvent.2

/-- `s` with the opcode table's number `w` presented at the command port, to be accepted at the next edge (R39; log entry
10). A number that is no command word cannot be presented: the state is then unchanged. -/
def State.withFetchWord (s : State) (nbits w : Nat) : State :=
  match cmdWordOf nbits w with
  | some c => s.present c
  | none => s

end Sys2Proof.Machine
end

