-- ==== Sys2Proof/Machine/Assembler.lean ====
section
/-! DEFINITION. The assembler's notation: lines (30_encoding.md R50), pseudo-instructions (R51) and listings (R52). -/

namespace Sys2Proof.Machine

/-- The command an assembler line in range stands for (R50). -/
def instrOfLine : AsmLine → Instr
  | .init => .init
  | .seed v => .seed (BitVec.ofNat 32 v)
  | .byte b => .byte (BitVec.ofNat 8 b)
  | .byteChar c => .byte (BitVec.ofNat 8 c.toNat)
  | .read => .read
  | .romrd i => .romrd (BitVec.ofNat 8 i)

/-- R50: a line's command word; "An operand out of range is an assembly error, not a command." -/
def assemble (l : AsmLine) : Option CmdWord := if l.wellFormed then some (encode (instrOfLine l)) else none

/-- The `BYTE` commands of a byte sequence, in order (R25, R37). -/
def byteCommands (buf : List Byte) : List Instr := buf.map .byte

/-- `UPDATE v, b_0, ..., b_(n-1)`: `SEED v; BYTE b_0; ...; BYTE b_(n-1); READ` (R51, R69). -/
def updateCommands (seed : Word) (buf : List Byte) : List Instr := .seed seed :: (byteCommands buf ++ [.read])

/-- R51's expansions. -/
def expand : Pseudo → List Instr
  | .update v buf => updateCommands v buf
  | .bytes text => byteCommands (text.map (fun c => BitVec.ofNat 8 c.toNat))
  | .crc32 buf => updateCommands 0 buf
  | .save => [.read]
  | .restore v => [.seed v]

/-- Space or tab. -/
def isBlank (c : Char) : Bool := c = ' ' || c = '\t'

def dropBlanks (cs : List Char) : List Char := cs.dropWhile isBlank

/-- Nothing but blanks before the end of the line or a comment (R50). -/
def atLineEnd (cs : List Char) : Bool :=
  match dropBlanks cs with
  | [] => true
  | c :: _ => c = ';'

/-- A decimal digit's value. -/
def decDigit (c : Char) : Option Nat :=
  if '0' ≤ c ∧ c ≤ '9' then some (c.toNat - 48) else none

/-- A hexadecimal digit's value, either case (log entry 14). -/
def hexDigit (c : Char) : Option Nat :=
  if '0' ≤ c ∧ c ≤ '9' then some (c.toNat - 48)
  else if 'A' ≤ c ∧ c ≤ 'F' then some (c.toNat - 55)
  else if 'a' ≤ c ∧ c ≤ 'f' then some (c.toNat - 87)
  else none

/-- The number whose digits stand first to last, read after `acc`. -/
def digitsFrom (base : Nat) (digit : Char → Option Nat) : Nat → List Char → Option Nat
  | acc, [] => some acc
  | acc, c :: cs =>
    match digit c with
    | some d => digitsFrom base digit (acc * base + d) cs
    | none => none

/-- "an unsigned number in hexadecimal (`0x` prefix) or decimal" (R50). -/
def parseNumber : List Char → Option Nat
  | [] => none
  | '0' :: 'x' :: [] => none
  | '0' :: 'x' :: c :: cs => digitsFrom 16 hexDigit 0 (c :: cs)
  | c :: cs => digitsFrom 10 decDigit 0 (c :: cs)

/-- The characters up to a blank or a comment, and the rest. -/
def splitWord : List Char → List Char × List Char
  | [] => ([], [])
  | c :: cs => if isBlank c || c = ';' then ([], c :: cs) else (c :: (splitWord cs).1, (splitWord cs).2)

/-- A line's only operand: a number and nothing after it. -/
def parseOperand (cs : List Char) : Option Nat :=
  if atLineEnd (splitWord (dropBlanks cs)).2 then parseNumber (splitWord (dropBlanks cs)).1 else none

/-- A character in single quotes and nothing after it (R50). -/
def parseQuoted (cs : List Char) : Option Char :=
  match dropBlanks cs with
  | q :: c :: q' :: rest => if q.toNat = 39 ∧ q'.toNat = 39 ∧ atLineEnd rest then some c else none
  | _ => none

/-- `BYTE`'s operand: a quoted character or a number (R50). -/
def parseByteOperand (cs : List Char) : Option AsmLine :=
  match parseQuoted cs with
  | some c => some (.byteChar c)
  | none => (parseOperand cs).map .byte

/-- The line of mnemonic `m` and the text after it. -/
def parseMnemonic (m rest : List Char) : Option AsmLine :=
  if m = ['I', 'N', 'I', 'T'] then (if atLineEnd rest then some .init else none)
  else if m = ['S', 'E', 'E', 'D'] then (parseOperand rest).map .seed
  else if m = ['B', 'Y', 'T', 'E'] then parseByteOperand rest
  else if m = ['R', 'E', 'A', 'D'] then (if atLineEnd rest then some .read else none)
  else if m = ['R', 'O', 'M', 'R', 'D'] then (parseOperand rest).map .romrd
  else none

/-- One line of text (R50): `some none` for a blank or comment line, `none` for text that is no line (log entry 14). -/
def parseLine (cs : List Char) : Option (Option AsmLine) :=
  if atLineEnd cs then some none
  else (parseMnemonic (splitWord (dropBlanks cs)).1 (splitWord (dropBlanks cs)).2).map some

/-- A digit of a listing: upper-case hexadecimal (R7). -/
def hexChar (d : Nat) : Char := if d < 10 then Char.ofNat (48 + d) else Char.ofNat (55 + d)

/-- `count` hexadecimal digits of `n`, most significant first. -/
def hexText : Nat → Nat → List Char
  | 0, _ => []
  | count + 1, n => hexText count (n / 16) ++ [hexChar (n % 16)]

/-- The assembler text of a command, operands in hexadecimal (R50, R52). -/
def asmText : Instr → List Char
  | .init => ['I', 'N', 'I', 'T']
  | .seed v => ['S', 'E', 'E', 'D', ' ', '0', 'x'] ++ hexText 8 v.toNat
  | .byte b => ['B', 'Y', 'T', 'E', ' ', '0', 'x'] ++ hexText 2 b.toNat
  | .read => ['R', 'E', 'A', 'D']
  | .romrd i => ['R', 'O', 'M', 'R', 'D', ' ', '0', 'x'] ++ hexText 2 i.toNat

/-- One line of R52's listing. -/
structure ListingLine where
  word : List Char
  text : List Char
  built : Bool
  acc : Option (List Char)
  response : Option (List Char)
deriving DecidableEq, Repr

/-- R52: the command word as nine digits, its text, then the state after it and the response if any. -/
def listingLine (i : Instr) (after : State) (response : Option Word) : ListingLine where
  word := hexText 9 (encode i).toNat
  text := asmText i
  built := after.built
  acc := after.accValue.map (fun v => hexText 8 v.toNat)
  response := response.map (fun v => hexText 8 v.toNat)

end Sys2Proof.Machine
end

