-- ==== Sys2Proof/Machine/Engines.lean ====
section
/-! DEFINITION. Several engines on one table (60_exceptions.md R90, 20_memory.md R35): the product of copies of the
single-engine machine, ports included, with a common table. The specified hardware is the case of one engine (R5). -/

namespace Sys2Proof.Machine

/-- What each instance has of its own: its accumulator, its command port and its response port (R90). -/
structure Lane where
  acc : Word
  seeded : Bool
  faultMark : Option Fault
  responses : List Word
  /-- The edges still to come at this instance's own command port (R38, R90). -/
  edges : List PortEdge
deriving DecidableEq, Repr

/-- `k` engines: the shared table and its flag, and one lane each (R90). The draw counter is common, so that no two engines
are given the same free word (log entry 12). -/
structure Engines where
  built : Bool
  table : Table
  tableResetBuilt : Bool
  draws : Nat
  lanes : List Lane
deriving DecidableEq, Repr

/-- The single-engine machine that lane `l` is, seen through the shared table. -/
def Engines.view (m : Engines) (l : Lane) : State where
  built := m.built
  acc := l.acc
  seeded := l.seeded
  table := m.table
  tableResetBuilt := m.tableResetBuilt
  faultMark := l.faultMark
  responses := l.responses
  edges := l.edges
  draws := m.draws

/-- The lane of a single-engine state. -/
def laneOf (s : State) : Lane where
  acc := s.acc
  seeded := s.seeded
  faultMark := s.faultMark
  responses := s.responses
  edges := s.edges

/-- Store what engine `k` left. -/
def Engines.put (m : Engines) (k : Nat) (s : State) : Engines where
  built := s.built
  table := s.table
  tableResetBuilt := s.tableResetBuilt
  draws := s.draws
  lanes := m.lanes.set k (laneOf s)

/-- Let engine `k` do what the single-engine machine does by `f`. There is no engine beyond the last: nothing happens
there. A refusal at engine `k` is the whole product's, and ends every engine's run: R83 refuses the run of one machine and R90
is silent on the others' runs, so this is DESIGN CHOICE, safe (log entry 20). -/
def Engines.atEngine (m : Engines) (k : Nat) (f : State → Host.Outcome State Fault Refusal) :
    Host.Outcome Engines Fault Refusal :=
  match m.lanes[k]? with
  | none => .next m
  | some l =>
    match f (m.view l) with
    | .next t => .next (m.put k t)
    | .fault r => .fault r
    | .refused r => .refused r

/-- One decoded command at engine `k` (R90), its whole effect at once, at every engine that shares it (log entry 21). -/
def Engines.exec (m : Engines) (k : Nat) (i : Instr) : Host.Outcome Engines Fault Refusal :=
  m.atEngine k (Sys2Proof.Machine.exec i)

/-- One edge at engine `k`'s own command port (R90): reset, an accepted word decoded and run or refused, or nothing, as for
the single-engine machine. A reset edge resets the engine and, since BUILT and T are common, the shared table with it
(R93; log entry 12). An INIT is seen by every engine from the edge that accepts it: `BUILT` becomes 1 only at its completion
(decision D4), and R90 does not say when another engine, whose port is not held meanwhile, sees it, so this is DESIGN CHOICE,
unsafe while the table is not yet built (log entry 21). -/
def Engines.step (m : Engines) (k : Nat) : Host.Outcome Engines Fault Refusal :=
  m.atEngine k Sys2Proof.Machine.step

/-- A run of the product: which engine's port has the next edge, edge after edge. R90 orders nothing between engines, so
every such list is a run. -/
def Engines.run : List Nat → Engines → Host.Outcome Engines Fault Refusal
  | [], m => .next m
  | k :: ks, m =>
    match m.step k with
    | .next m' => Engines.run ks m'
    | .fault r => .fault r
    | .refused r => .refused r

/-- Lanes after reset, each accumulator a free word of its own, numbered from `n` (R21), nothing presented at their ports. -/
def resetLanes : Nat → Nat → List Lane
  | 0, _ => []
  | count + 1, n =>
    { acc := Config.freeWord n, seeded := false, faultMark := none, responses := [], edges := [] } ::
      resetLanes count (n + 1)

/-- `count` engines after power-up reset (R21, R90; log entry 12). -/
def Engines.reset (count : Nat) (tableResetBuilt : Bool) : Engines where
  built := tableResetBuilt
  table := resetTable tableResetBuilt
  tableResetBuilt := tableResetBuilt
  draws := count
  lanes := resetLanes count 0

/-- What an outcome of the product shows at engine `j`. -/
def laneSeen (j : Nat) : Host.Outcome Engines Fault Refusal → Host.Outcome (Option Lane) Fault Refusal
  | .next m => .next m.lanes[j]?
  | .fault r => .fault r
  | .refused r => .refused r

end Sys2Proof.Machine
end

