-- ==== Sys2Proof/Safety.lean ====
section
/-! DEFINITION. Outcomes and runs in the terms claims use: the spec's stopping outcome (60_exceptions.md R80, R86), runs
(70_reset_and_hazards.md R104), the invariant (10_state.md R15), and the host's duties (60_exceptions.md R92). -/

namespace Sys2Proof.Safety

open Sys2Proof.Machine

/-- R86: "the faulting command has no successor state: the run stops there". -/
def stopAtMark : Host.Outcome State Fault Refusal → Host.Outcome State Fault Refusal
  | .next t =>
    match t.faultMark with
    | some f => .fault f
    | none => .next t
  | .fault f => .fault f
  | .refused r => .refused r

/-- R80's three outcomes of a command: as `exec`, but a recorded fault ends the run (log entry 5). -/
def checkedExec (i : Instr) (s : State) : Host.Outcome State Fault Refusal := stopAtMark (exec i s)

/-- R80's three outcomes of an edge. -/
def checkedStep (s : State) : Host.Outcome State Fault Refusal := stopAtMark (step s)

/-- The commands of a list, one after the other (R32), as the hardware runs them. -/
def runInstrs : List Instr → State → Host.Outcome State Fault Refusal
  | [], s => .next s
  | i :: is, s =>
    match exec i s with
    | .next t => runInstrs is t
    | .fault f => .fault f
    | .refused r => .refused r

/-- The commands of a list, stopping at the first fault (R80, R86). -/
def runChecked : List Instr → State → Host.Outcome State Fault Refusal
  | [], s => .next s
  | i :: is, s =>
    match checkedExec i s with
    | .next t => runChecked is t
    | .fault f => .fault f
    | .refused r => .refused r

/-- The port edges at which the commands of a list are accepted, one after the other (R39). -/
def edgesOf (is : List Instr) : List PortEdge := is.map (fun i => PortEdge.accepting (encode i))

/-- R104: a run of `k` edges that ended in `t` is good when no fault was recorded and nothing refused. -/
def GoodRun (k : Nat) (s t : State) : Prop := core.run k s = .next t ∧ t.faultMark = none

/-- R15: `T[i] = entry(i)` for every index. -/
def TableHolds (t : Table) : Prop := ∀ i : Byte, t.read i.toNat = some (entry i)

/-- What every reachable state satisfies: the table is in canonical form, a built table holds `entry` (R15), and with
`TABLE_RESET_BUILT` the table is never unbuilt (R21, R81). -/
def StateInv (s : State) : Prop :=
  s.table.wf = true ∧ (s.built = true → TableHolds s.table) ∧ (s.tableResetBuilt = true → s.built = true)

/-- The shared table of several engines is built and in form (R90). -/
def EnginesBuilt (m : Engines) : Prop := m.built = true ∧ m.table.wf = true ∧ TableHolds m.table

/-- A host that holds its command: what it presents and is not accepted it presents again, unchanged, at the next edge,
unless reset. R92 asks only that `cmd_op` and `cmd_arg` be stable while `cmd_valid = 1` until accepted; whether the host may
withdraw `cmd_valid` before acceptance the spec leaves open, and that it does not is DESIGN CHOICE (log entry 19), safe: this
is a premise of claims, and the machine itself runs every host. -/
def hostHolds : List PortEdge → Bool
  | [] => true
  | [_] => true
  | e :: f :: es =>
    (e.rst || !e.cmdValid || e.cmdReady || f.rst || (f.cmdValid && f.cmdOp = e.cmdOp && f.cmdArg = e.cmdArg))
      && hostHolds (f :: es)

/-- R92: the host presents no reserved encoding at any edge without reset. -/
def edgesLegal (es : List PortEdge) : Bool :=
  es.all (fun e => e.rst || !e.cmdValid || (match decode e.word with | .ok _ => true | .error _ => false))

/-- The first command word accepted in a list of edges, before any reset. -/
def firstAccepted : List PortEdge → Option CmdWord
  | [] => none
  | e :: es =>
    match e.event with
    | .reset => none
    | .command w => some w
    | .hold => firstAccepted es

end Sys2Proof.Safety
end

