-- ==== Sys2Proof/Certificates/Slice0/Obligations.lean ====
section
/-! DEFINITION. The statements for the provers. Each docstring names the rule or the section it formalises. -/

open Sys2Proof Sys2Proof.Machine Sys2Proof.Safety

/-- 30_encoding.md R44: the decoder line by line, the match/mask form, its disjointness, and the counts. -/
def Obligations.DecodeIsTheOpcodeMap : Prop :=
  (∀ w : CmdWord,
    (opField w = 0 → argField w = 0 → decode w = .ok .init) ∧
    (opField w = 1 → decode w = .ok (.seed (argField w))) ∧
    (opField w = 2 → argHigh (argField w) = 0 → decode w = .ok (.byte (argByte (argField w)))) ∧
    (opField w = 3 → argField w = 0 → decode w = .ok .read) ∧
    (opField w = 4 → argHigh (argField w) = 0 → decode w = .ok (.romrd (argByte (argField w)))) ∧
    (¬(opField w = 0 ∧ argField w = 0) → opField w ≠ 1 → ¬(opField w = 2 ∧ argHigh (argField w) = 0) →
      ¬(opField w = 3 ∧ argField w = 0) → ¬(opField w = 4 ∧ argHigh (argField w) = 0) →
      ∃ r, decode w = .error r)) ∧
  encodingTable =
    [⟨"INIT", 0x7FFFFFFFF#35, 0x000000000#35⟩, ⟨"SEED", 0x700000000#35, 0x100000000#35⟩,
      ⟨"BYTE", 0x7FFFFFF00#35, 0x200000000#35⟩, ⟨"READ", 0x7FFFFFFFF#35, 0x300000000#35⟩,
      ⟨"ROMRD", 0x7FFFFFF00#35, 0x400000000#35⟩] ∧
  (∀ w i, decode w = .ok i → i.row.selects w = true) ∧
  (∀ w, ∀ r ∈ encodingTable, r.selects w = true → ∃ i, decode w = .ok i ∧ i.row = r) ∧
  encodingTable.Pairwise (fun r r' => ∀ w, ¬(r.selects w = true ∧ r'.selects w = true)) ∧
  Nat.card {w : CmdWord // decode w = .ok .init} = 1 ∧
  Nat.card {w : CmdWord // ∃ v, decode w = .ok (.seed v)} = 2 ^ 32 ∧
  Nat.card {w : CmdWord // ∃ b, decode w = .ok (.byte b)} = 256 ∧
  Nat.card {w : CmdWord // decode w = .ok .read} = 1 ∧
  Nat.card {w : CmdWord // ∃ x, decode w = .ok (.romrd x)} = 256

/-- R42, R43, R44: decoding an encoded command gives it back, and a word that decodes is its command's encoding. -/
def Obligations.DecodeEncodeAgree : Prop :=
  (∀ i : Instr, i.wellFormed = true → decode (encode i) = .ok i) ∧
  (∀ (w : CmdWord) (i : Instr), decode w = .ok i → i.wellFormed = true ∧ encode i = w)

/-- 95_test_vectors.md V49 to V60: chosen words of every command, each beside a reserved neighbour. -/
def Obligations.DecodeOfChosenWords : Prop :=
  decode 0x000000000#35 = .ok .init ∧ decode 0x000000001#35 = .error .argument ∧
  decode 0x100000000#35 = .ok (.seed 0x00000000#32) ∧ decode 0x1FFFFFFFF#35 = .ok (.seed 0xFFFFFFFF#32) ∧
  decode 0x2000000FF#35 = .ok (.byte 0xFF#8) ∧ decode 0x200000100#35 = .error .argument ∧
  decode 0x280000031#35 = .error .argument ∧ decode 0x300000000#35 = .ok .read ∧
  decode 0x380000000#35 = .error .argument ∧ decode 0x4000000FF#35 = .ok (.romrd 0xFF#8) ∧
  decode 0x400000100#35 = .error .argument ∧ decode 0x500000000#35 = .error .opcode ∧
  decode 0x600000000#35 = .error .opcode ∧ decode 0x7FFFFFFFF#35 = .error .opcode

/-- R46, R47, R83: a reserved opcode, or a must-be-zero bit that is set, is refused in every state, and so is every run
that goes on from there. -/
def Obligations.ReservedEncodingsRefused : Prop :=
  ∀ (s : State) (w : CmdWord),
    (opField w = 5 ∨ opField w = 6 ∨ opField w = 7 ∨
      ((opField w = 0 ∨ opField w = 3) ∧ argField w ≠ 0) ∨
      ((opField w = 2 ∨ opField w = 4) ∧ argHigh (argField w) ≠ 0)) →
    step (s.present w) = .refused .reservedEncoding ∧
    checkedStep (s.present w) = .refused .reservedEncoding ∧
    ∀ k, Host.Core.run core (k + 1) (s.present w) = .refused .reservedEncoding

/-- R49's acceptance, with the model's choice for the undefined uses (log entries 4 and 5; R80's hardware column): the step
that accepts a legal word is never refused, and it answers a next state also for BYTE or ROMRD with BUILT = 0 and for READ or
BYTE unseeded, where the spec's recommended model stops in the fault (R86; `checkedStep`). -/
def Obligations.LegalWordsAcceptedInEveryState : Prop :=
  ∀ (s : State) (w : CmdWord) (i : Instr), decode w = .ok i → ∃ t, step (s.present w) = .next t

/-- R39, R45: at an edge that accepts a word, the step is that of the decoded command on the state with the edge taken off
the port; nothing else is added around it. -/
def Obligations.StepRunsDecodedCommand : Prop :=
  ∀ (s : State) (e : PortEdge) (es : List PortEdge) (i : Instr),
    s.edges = e :: es → e.rst = false → e.cmdValid = true → e.cmdReady = true →
    decode e.word = .ok i → i.wellFormed = true →
    step s = exec i { s with edges := es }

/-- R39, R104: an edge that neither resets nor accepts holds the state, and so does a port with nothing to come. -/
def Obligations.OtherEdgesHoldTheState : Prop :=
  (∀ (s : State) (e : PortEdge) (es : List PortEdge),
    s.edges = e :: es → e.rst = false → (e.cmdValid = false ∨ e.cmdReady = false) →
    step s = .next { s with edges := es }) ∧
  (∀ s : State, s.edges = [] → step s = .next s)

/-- R39: an idle gap of any length between two commands changes no result. -/
def Obligations.IdleGapsChangeNothing : Prop :=
  ∀ (s : State) (gap rest : List PortEdge),
    (∀ e ∈ gap, e.rst = false ∧ (e.cmdValid = false ∨ e.cmdReady = false)) →
    Host.Core.run core gap.length { s with edges := gap ++ rest } = .next { s with edges := rest }

/-- R92, R100, R101, for a host that also keeps `cmd_valid` raised until acceptance (`hostHolds`; R92 does not say whether it
may withdraw it: log entry 19): it needs no delay, the first word accepted is the one presented, however long `cmd_ready`
stays low. -/
def Obligations.HeldCommandIsTheOneAccepted : Prop :=
  ∀ (e : PortEdge) (es : List PortEdge),
    hostHolds (e :: es) = true → e.cmdValid = true → (∀ f ∈ e :: es, f.rst = false) →
    (∃ f ∈ e :: es, f.cmdReady = true) →
    firstAccepted (e :: es) = some e.word

/-- R93, R94: at a reset edge `cmd_ready` is 0, nothing presented is accepted, and the step leaves the state of R21 for the
machine's parameter; an INIT just accepted does not survive it. -/
def Obligations.ResetEdgeLeavesResetState : Prop :=
  ∀ (s : State) (e : PortEdge) (es : List PortEdge), e.rst = true →
    (s.edges = e :: es →
      ∃ t, step s = .next t ∧ t.built = s.tableResetBuilt ∧ t.accValue = none ∧
        (s.tableResetBuilt = true → TableHolds t.table) ∧
        (s.tableResetBuilt = false → ∀ i, t.storedWord i = none) ∧
        t.responses = [] ∧ t.faultMark = none ∧ t.edges = es ∧ t.tableResetBuilt = s.tableResetBuilt ∧
        e.cmdReady = false) ∧
    (s.edges = PortEdge.accepting (encode .init) :: e :: es →
      ∃ t, Host.Core.run core 2 s = .next t ∧ t.built = s.tableResetBuilt ∧
        (s.tableResetBuilt = false → ∀ i, t.storedWord i = none))

/-- R21: what reset leaves, for both values of TABLE_RESET_BUILT; `State.reset` is the recommended default. -/
def Obligations.ResetState : Prop :=
  ∀ p : Bool,
    (State.resetWith p).poly = 0xEDB88320#32 ∧ (State.resetWith p).built = p ∧
    (State.resetWith p).accValue = none ∧ (State.resetWith p).responses = [] ∧
    (State.resetWith p).faultMark = none ∧
    (p = true → TableHolds (State.resetWith p).table) ∧
    (p = false → ∀ i, (State.resetWith p).storedWord i = none) ∧
    State.reset = State.resetWith false

/-- R10, R15, R21: the invariant holds after reset, for both values of the parameter. -/
def Obligations.ResetMeetsInvariant : Prop := ∀ p : Bool, StateInv (State.resetWith p)

/-- R14, R15, R96: every step keeps the table in canonical form, a built table equal to `entry`, and a ROM built. -/
def Obligations.StepKeepsInvariant : Prop := ∀ s t : State, StateInv s → step s = .next t → StateInv t

/-- R20, R93, R96: without a reset edge, BUILT stays 1, a built table never changes, a seeded ACC stays seeded, and the
parameter never changes. -/
def Obligations.OnlyResetUnbuildsOrUnseeds : Prop :=
  ∀ s t : State, StateInv s → step s = .next t → (∀ e es, s.edges = e :: es → e.rst = false) →
    (s.built = true → t.built = true ∧ t.table = s.table) ∧
    (s.seeded = true → t.seeded = true) ∧
    t.tableResetBuilt = s.tableResetBuilt

/-- R62: no command writes a single table word, clears BUILT or changes POLY: the table after a command is the table before
it, or (INIT) the one holding `entry` in every word. -/
def Obligations.TableWrittenOnlyWhole : Prop :=
  ∀ (i : Instr) (s t : State), exec i s = .next t →
    ((i ≠ .init ∧ t.table = s.table ∧ t.built = s.built) ∨ (i = .init ∧ TableHolds t.table ∧ t.built = true)) ∧
    (s.built = true → t.built = true) ∧ t.poly = s.poly ∧ t.poly = 0xEDB88320#32

/-- R53: the division step, bit by bit, and the rule's examples. -/
def Obligations.DivisionStep : Prop :=
  (∀ r : Word, step1 r = (r >>> 1) ^^^ (if r.getLsbD 0 = true then 0xEDB88320#32 else 0x00000000#32)) ∧
  (∀ r : Word, (r >>> 1).getLsbD 31 = false) ∧
  (∀ r : Word, r.getLsbD 0 = false → step1 r = r >>> 1) ∧
  step1 0x00000001#32 = 0xEDB88320#32 ∧ step1 0x00000002#32 = 0x00000001#32 ∧
  step1 0xEDB88320#32 = 0x76DC4190#32 ∧ step1 0x00000000#32 = 0x00000000#32 ∧
  step1 0xFFFFFFFF#32 = 0x7FFFFFFF#32 ^^^ 0xEDB88320#32 ∧ step1 0xFFFFFFFF#32 = 0x92477CDF#32

/-- R54: the branchless form equals the division step, and the two cases of its mask. -/
def Obligations.BranchlessStepAgrees : Prop :=
  (∀ r : Word, step1 r = (r >>> 1) ^^^ (Config.poly &&& ~~~((r &&& 1#32) - 1#32))) ∧
  (∀ r : Word, step1Mask r = step1 r) ∧
  (∀ r : Word, r.getLsbD 0 = true →
    (r &&& 1#32) - 1#32 = 0x00000000#32 ∧ Config.poly &&& ~~~((r &&& 1#32) - 1#32) = Config.poly) ∧
  (∀ r : Word, r.getLsbD 0 = false →
    (r &&& 1#32) - 1#32 = 0xFFFFFFFF#32 ∧ Config.poly &&& ~~~((r &&& 1#32) - 1#32) = 0x00000000#32)

/-- R55: `entry` is eight division steps from the zero-extended index, and the rule's worked example. -/
def Obligations.EntryIsEightSteps : Prop :=
  (∀ i : Byte, entry i = step1 (step1 (step1 (step1 (step1 (step1 (step1 (step1 (i.setWidth 32))))))))) ∧
  step1Times 1 0x00000001#32 = 0xEDB88320#32 ∧ step1Times 2 0x00000001#32 = 0x76DC4190#32 ∧
  step1Times 3 0x00000001#32 = 0x3B6E20C8#32 ∧ step1Times 4 0x00000001#32 = 0x1DB71064#32 ∧
  step1Times 5 0x00000001#32 = 0x0EDB8832#32 ∧ step1Times 6 0x00000001#32 = 0x076DC419#32 ∧
  step1Times 7 0x00000001#32 = 0xEE0E612C#32 ∧ entry 0x01#8 = 0x77073096#32

/-- R56 (a), (b), (c), (e), (f), and (d) as the words listed beside it have it (log entry 15): linearity, the generators,
distinct words and distinct top bytes, eight steps of a general word. -/
def Obligations.EntryProperties : Prop :=
  (∀ a b : Word, step1 (a ^^^ b) = step1 a ^^^ step1 b) ∧
  (∀ i j : Byte, entry (i ^^^ j) = entry i ^^^ entry j) ∧
  entry 0x00#8 = 0x00000000#32 ∧ entry 0x80#8 = Config.poly ∧ Config.poly = 0xEDB88320#32 ∧
  (∀ k : Nat, k ≤ 7 → entry (BitVec.ofNat 8 (2 ^ k)) = step1Times (8 - k) 0x00000001#32) ∧
  entry 0x40#8 = 0x76DC4190#32 ∧ entry 0x20#8 = 0x3B6E20C8#32 ∧ entry 0x10#8 = 0x1DB71064#32 ∧
  entry 0x08#8 = 0x0EDB8832#32 ∧ entry 0x04#8 = 0x076DC419#32 ∧ entry 0x02#8 = 0xEE0E612C#32 ∧
  entry 0x01#8 = 0x77073096#32 ∧
  (∀ i j : Byte, entry i = entry j → i = j) ∧
  (∀ i j : Byte, (entry i).extractLsb' 24 8 = (entry j).extractLsb' 24 8 → i = j) ∧
  (∀ c : Word, c.extractLsb' 8 24 = 0#24 → step1Times 8 c = entry (lowByte c)) ∧
  (∀ c : Word, step1Times 8 c = entry (lowByte c) ^^^ (c >>> 8))

/-- R56 (d)'s formula as printed. It contradicts the words the same clause lists (it would give entry(0x40) the word listed
for entry(0x02)), so it is expected to FAIL; log entry 15. -/
def Obligations.GeneratorFormulaAsPrinted : Prop :=
  ∀ k : Nat, k ≤ 6 → entry (BitVec.ofNat 8 (2 ^ k)) = step1Times (k + 1) 0x00000001#32

/-- R57: `build_table` stores `entry` at every index from whatever table it starts, in any order of the indexes, and
running it again yields the identical table; the trip counts are 256 and 8. -/
def Obligations.BuildTableStoresEntry : Prop :=
  (∀ t : Table, TableHolds (buildTable t)) ∧
  (∀ (t : Table) (is : List Nat), t.wf = true → is.Perm (List.range 256) → buildFrom t is = buildTable t) ∧
  (∀ t : Table, t.wf = true → buildTable (buildTable t) = buildTable t) ∧
  (∀ t : Table, buildTable t =
    (List.range 256).foldl (fun u i => u.write i (step1Times 8 ((BitVec.ofNat 8 i).setWidth 32))) t)

/-- R58: INIT in every state: the table built, BUILT raised, nothing else changed, no response, no fault; its encoding; a
non-zero argument is reserved; and the rule's worked example. -/
def Obligations.InitBuildsTable : Prop :=
  encode .init = 0x000000000#35 ∧ (∀ arg : Word, arg ≠ 0 → ∀ i, decode (commandWord 0 arg) ≠ .ok i) ∧
  (∀ s : State, exec .init s = .next { s with table := buildTable s.table, built := true } ∧
    TableHolds (buildTable s.table) ∧ (s.faultMark = none → checkedExec .init s = exec .init s)) ∧
  (∃ t, exec .init (State.resetWith false) = .next t ∧ t.built = true ∧ t.accValue = none ∧
    t.storedWord 0x00#8 = some 0x00000000#32 ∧ t.storedWord 0x01#8 = some 0x77073096#32 ∧
    t.storedWord 0x80#8 = some 0xEDB88320#32 ∧ t.storedWord 0xFF#8 = some 0x2D02EF8D#32)

/-- R59: INIT on a built table: the state after it equals the state before it. -/
def Obligations.RepeatedInitChangesNothing : Prop :=
  ∀ s : State, StateInv s → s.built = true → exec .init s = .next s

/-- R60: the table after INIT depends on nothing but POLY, has exactly 256 entries, and is identical across builds. -/
def Obligations.TableAfterInitIsConstant : Prop :=
  ∀ s s' : State, s.table.wf = true → s'.table.wf = true →
    ∃ t t', exec .init s = .next t ∧ exec .init s' = .next t' ∧ t.table = t'.table ∧
      t.table.length = 256 ∧ (∀ n, 256 ≤ n → t.table.read n = none) ∧
      t.table.read 0 = some 0x00000000#32 ∧ (∀ i : Byte, t.table.read i.toNat = some (step1Times 8 (i.setWidth 32)))

/-- R61: ROMRD of a built table responds `entry(i)` and changes nothing else; before INIT the model-level outcome is the
fault; the encoding, the corner cases and the worked example. -/
def Obligations.RomrdRespondsTableWord : Prop :=
  (∀ i : Byte, (encode (.romrd i)).toNat = 0x400000000 + i.toNat) ∧
  (∀ arg : Word, argHigh arg ≠ 0 → ∀ i, decode (commandWord 4 arg) ≠ .ok i) ∧
  (∀ (s : State) (i : Byte), s.built = true → TableHolds s.table →
    exec (.romrd i) s = .next { s with responses := s.responses ++ [entry i] }) ∧
  (∀ (s : State) (i : Byte), s.built = false → s.faultMark = none →
    checkedExec (.romrd i) s = .fault .useBeforeInit) ∧
  (∀ s : State, s.built = true → TableHolds s.table →
    exec (.romrd 0x00#8) s = .next { s with responses := s.responses ++ [0x00000000#32] } ∧
    exec (.romrd 0xFF#8) s = .next { s with responses := s.responses ++ [0x2D02EF8D#32] } ∧
    exec (.romrd 0x80#8) s = .next { s with responses := s.responses ++ [0xEDB88320#32] }) ∧
  encode (.romrd 0x80#8) = 0x400000080#35

/-- R63: the datapath bit by bit, what each command and an edge without one put into ACC, and what READ puts out. -/
def Obligations.DatapathOfAcc : Prop :=
  (∀ (b : Byte) (acc : Word), tableIndex b acc = b ^^^ acc.extractLsb' 0 8) ∧
  (∀ (word acc : Word) (j : Nat), j < 24 →
    (nextAcc word acc).getLsbD j = (word.getLsbD j ^^ acc.getLsbD (j + 8))) ∧
  (∀ (word acc : Word) (j : Nat), 24 ≤ j → j < 32 → (nextAcc word acc).getLsbD j = word.getLsbD j) ∧
  (∀ (i : Instr) (s t : State), exec i s = .next t →
    t.acc = match i with
      | .seed v => ~~~v
      | .byte b => nextAcc (s.romRead (b ^^^ s.acc.extractLsb' 0 8)).1 s.acc
      | .init => s.acc
      | .read => s.acc
      | .romrd _ => s.acc) ∧
  (∀ s t : State, exec .read s = .next t → t.responses = s.responses ++ [~~~s.acc]) ∧
  (∀ s t : State, s.takeEvent.1 = .hold → step s = .next t → t.acc = s.acc)

/-- R64: SEED in every state loads the complement of its operand and changes nothing else; encoding and corner cases. -/
def Obligations.SeedLoadsComplement : Prop :=
  (∀ v : Word, (encode (.seed v)).toNat = 0x100000000 + v.toNat) ∧
  (∀ (s : State) (v : Word), exec (.seed v) s = .next { s with acc := ~~~v, seeded := true } ∧
    ~~~v = v ^^^ 0xFFFFFFFF#32 ∧ (s.faultMark = none → checkedExec (.seed v) s = exec (.seed v) s)) ∧
  (∀ s : State, exec (.seed 0x00000000#32) s = .next { s with acc := 0xFFFFFFFF#32, seeded := true } ∧
    exec (.seed 0xFFFFFFFF#32) s = .next { s with acc := 0x00000000#32, seeded := true } ∧
    exec (.seed 0x9BE3E0A3#32) s = .next { s with acc := 0x641C1F5C#32, seeded := true }) ∧
  encode (.seed 0x9BE3E0A3#32) = 0x19BE3E0A3#35 ∧
  (∀ (s : State) (v v' : Word), runInstrs [.seed v, .seed v'] s = runInstrs [.seed v'] s)

/-- R65: BYTE of a built table and a seeded accumulator; the two faults in their order; the encoding; the corner cases; for
a fixed ACC distinct bytes give distinct results, for a fixed byte the map of ACC is a bijection; the worked example. -/
def Obligations.ByteFoldsIntoAcc : Prop :=
  (∀ b : Byte, (encode (.byte b)).toNat = 0x200000000 + b.toNat) ∧
  (∀ arg : Word, argHigh arg ≠ 0 → ∀ i, decode (commandWord 2 arg) ≠ .ok i) ∧
  (∀ (s : State) (b : Byte), s.built = true → TableHolds s.table → s.seeded = true →
    exec (.byte b) s = .next { s with acc := entry (b ^^^ s.acc.extractLsb' 0 8) ^^^ (s.acc >>> 8) }) ∧
  (∀ (s : State) (b : Byte), s.faultMark = none →
    (s.built = false → checkedExec (.byte b) s = .fault .useBeforeInit) ∧
    (s.built = true → s.seeded = false → checkedExec (.byte b) s = .fault .useBeforeSeed)) ∧
  (∀ acc : Word, tableIndex 0x00#8 acc = lowByte acc) ∧
  nextAcc (entry (tableIndex 0x00#8 0x00000000#32)) 0x00000000#32 = 0x00000000#32 ∧
  (∀ acc : Word, nextAcc (entry (tableIndex (lowByte acc) acc)) acc = acc >>> 8) ∧
  nextAcc (entry (tableIndex 0xFF#8 0xFFFFFFFF#32)) 0xFFFFFFFF#32 = 0x00FFFFFF#32 ∧
  (∀ (b : Byte) (acc : Word), (nextAcc (entry (tableIndex b acc)) acc).extractLsb' 24 8 =
    (entry (tableIndex b acc)).extractLsb' 24 8) ∧
  (∀ (acc : Word) (b b' : Byte),
    nextAcc (entry (tableIndex b acc)) acc = nextAcc (entry (tableIndex b' acc)) acc → b = b') ∧
  (∀ b : Byte, Function.Bijective (fun acc : Word => nextAcc (entry (tableIndex b acc)) acc)) ∧
  tableIndex 0x31#8 0xFFFFFFFF#32 = 0xCE#8 ∧ entry 0xCE#8 = 0x7CDCEFB7#32 ∧
  nextAcc (entry (tableIndex 0x31#8 0xFFFFFFFF#32)) 0xFFFFFFFF#32 = 0x7C231048#32 ∧
  encode (.byte 0x31#8) = 0x200000031#35

/-- R68: READ of a seeded accumulator responds NOT ACC and writes nothing, table built or not; unseeded it is the fault;
READ after SEED, twice, and the worked example. -/
def Obligations.ReadRespondsComplement : Prop :=
  encode .read = 0x300000000#35 ∧ (∀ arg : Word, arg ≠ 0 → ∀ i, decode (commandWord 3 arg) ≠ .ok i) ∧
  (∀ s : State, s.seeded = true →
    exec .read s = .next { s with responses := s.responses ++ [~~~s.acc] } ∧ ~~~s.acc = s.acc ^^^ 0xFFFFFFFF#32) ∧
  (∀ s : State, s.seeded = false → s.faultMark = none → checkedExec .read s = .fault .useBeforeSeed) ∧
  (∀ (s : State) (v : Word), runInstrs [.seed v, .read] s =
    .next { s with acc := ~~~v, seeded := true, responses := s.responses ++ [v] }) ∧
  (∀ s : State, s.seeded = true →
    runInstrs [.read, .read] s = .next { s with responses := s.responses ++ [~~~s.acc, ~~~s.acc] }) ∧
  (∀ s : State, s.seeded = true → s.acc = 0x340BC6D9#32 →
    exec .read s = .next { s with responses := s.responses ++ [0xCBF43926#32] })

/-- R13, R30, R40, R45, R58, R61, R64, R65, R68: what each command leaves unchanged, in every state. INIT is the only
command that stores to the table, and it stores to every index of it. -/
def Obligations.FrameOfEveryCommand : Prop :=
  ∀ (i : Instr) (s t : State), exec i s = .next t →
    t.tableResetBuilt = s.tableResetBuilt ∧ t.edges = s.edges ∧
    (match i with
      | .init => t.acc = s.acc ∧ t.seeded = s.seeded ∧ t.responses = s.responses ∧ t.faultMark = s.faultMark ∧
          t.draws = s.draws ∧ (∀ n, 256 ≤ n → t.table.read n = s.table.read n)
      | .seed _ => t.built = s.built ∧ t.responses = s.responses ∧ t.faultMark = s.faultMark ∧ t.draws = s.draws ∧
          (∀ n, t.table.read n = s.table.read n)
      | .byte _ => t.built = s.built ∧ t.seeded = s.seeded ∧ t.responses = s.responses ∧
          (s.built = true → s.seeded = true → t.faultMark = s.faultMark) ∧ (∀ n, t.table.read n = s.table.read n)
      | .read => t.built = s.built ∧ t.acc = s.acc ∧ t.seeded = s.seeded ∧ t.draws = s.draws ∧
          (s.seeded = true → t.faultMark = s.faultMark) ∧ (∀ n, t.table.read n = s.table.read n)
      | .romrd _ => t.built = s.built ∧ t.acc = s.acc ∧ t.seeded = s.seeded ∧
          (s.built = true → t.faultMark = s.faultMark) ∧ (∀ n, t.table.read n = s.table.read n))

/-- R40: READ and ROMRD append exactly one response, INIT, SEED and BYTE none, and earlier responses stand in order. That
READ unseeded and ROMRD with BUILT = 0 answer a next state with their one response is the model's choice, after R80's
hardware column (log entries 4 and 5): R86 and V16 give the spec's recommended model the fault and no response. -/
def Obligations.OneResponsePerReadOrRomrd : Prop :=
  ∀ (i : Instr) (s : State), ∃ t out, exec i s = .next t ∧ t.responses = s.responses ++ out ∧
    out.length = match i with
      | .init => 0
      | .seed _ => 0
      | .byte _ => 0
      | .read => 1
      | .romrd _ => 1

/-- R30: any number of READs, or of ROMRDs of one index, respond the same word and change nothing else. -/
def Obligations.ReadsAreIdempotent : Prop :=
  (∀ (s : State) (n : Nat), s.seeded = true →
    runInstrs (List.replicate n .read) s = .next { s with responses := s.responses ++ List.replicate n (~~~s.acc) }) ∧
  (∀ (s : State) (i : Byte) (n : Nat), s.built = true → TableHolds s.table →
    runInstrs (List.replicate n (.romrd i)) s = .next { s with responses := s.responses ++ List.replicate n (entry i) })

/-- R80, R85: which fault a command reports, exactly, with nothing recorded before; every other command completes as the
hardware does; decoding comes first; reset overrides everything; the rule's example. -/
def Obligations.FaultsInTheirOrder : Prop :=
  (∀ (i : Instr) (s : State), s.faultMark = none →
    (checkedExec i s = .fault .useBeforeInit ↔ s.built = false ∧ ∃ b, i = .byte b ∨ i = .romrd b) ∧
    (checkedExec i s = .fault .useBeforeSeed ↔
      s.seeded = false ∧ (i = .read ∨ (s.built = true ∧ ∃ b, i = .byte b))) ∧
    (∀ r, checkedExec i s ≠ .refused r) ∧
    ((∀ f, checkedExec i s ≠ .fault f) → checkedExec i s = exec i s)) ∧
  (∀ (s : State) (w : CmdWord) (r : Reserved), decode w = .error r →
    checkedStep (s.present w) = .refused .reservedEncoding) ∧
  (∀ (s : State) (e : PortEdge) (es : List PortEdge), s.edges = e :: es → e.rst = true →
    step s = .next (State.applyReset { s with edges := es })) ∧
  (∀ b : Byte, checkedExec (.byte b) (State.resetWith false) = .fault .useBeforeInit)

/-- R82: BYTE (of a built table) or READ while ACC is none is the fault; ACC is none exactly until the first SEED after
reset. -/
def Obligations.UseBeforeSeedFaults : Prop :=
  (∀ s : State, s.accValue = none → s.faultMark = none →
    checkedExec .read s = .fault .useBeforeSeed ∧
    (s.built = true → ∀ b, checkedExec (.byte b) s = .fault .useBeforeSeed)) ∧
  (∀ (p : Bool) (is : List Instr) (t : State), runInstrs is (State.resetWith p) = .next t →
    (t.accValue = none ↔ ∀ v, Instr.seed v ∉ is))

/-- R66, R81 (its alternative; the model's choice, log entry 4): before INIT, BYTE and ROMRD go on with a free word, record
the fault and change nothing else. -/
def Obligations.TableUseBeforeInitGoesOn : Prop :=
  ∀ (s : State) (b : Byte), s.built = false →
    exec (.byte b) s = .next { s with
      acc := Config.freeWord s.draws ^^^ (s.acc >>> 8), draws := s.draws + 1,
      faultMark := s.faultMark.or (some .useBeforeInit) } ∧
    exec (.romrd b) s = .next { s with
      responses := s.responses ++ [Config.freeWord s.draws], draws := s.draws + 1,
      faultMark := s.faultMark.or (some .useBeforeInit) }

/-- R67, R80 (the model's choice, log entry 5): before SEED, READ and BYTE go on with the bits the register holds, record the
fault, and ACC stays `none` in the spec's sense. -/
def Obligations.AccUseBeforeSeedGoesOn : Prop :=
  ∀ (s : State) (b : Byte), s.seeded = false →
    exec .read s = .next { s with
      responses := s.responses ++ [~~~s.acc], faultMark := s.faultMark.or (some .useBeforeSeed) } ∧
    (s.built = true → TableHolds s.table →
      exec (.byte b) s = .next { s with
        acc := entry (b ^^^ s.acc.extractLsb' 0 8) ^^^ (s.acc >>> 8),
        faultMark := s.faultMark.or (some .useBeforeSeed) })

/-- R86: once a fault is recorded, no command and no step but a reset edge clears the mark, and no run that starts from
there is ever good. R86 only says that a recorded fault stays recorded; that the mark keeps the FIRST fault, a later one not
replacing it, is the model's choice (log entry 18). -/
def Obligations.RecordedFaultIsSticky : Prop :=
  ∀ (s : State) (f : Fault), s.faultMark = some f →
    (∀ (is : List Instr) (t : State), runInstrs is s = .next t → t.faultMark = some f) ∧
    (∀ t, step s = .next t → (∀ e es, s.edges = e :: es → e.rst = false) → t.faultMark = some f) ∧
    (∀ k t, (∀ e ∈ s.edges, e.rst = false) → ¬GoodRun k s t)

/-- R95: after reset, INIT and SEED (in either order) make every later command complete with no fault recorded, for both
values of the parameter. -/
def Obligations.PreambleNeverFaults : Prop :=
  ∀ (p : Bool) (v : Word) (is : List Instr),
    (∃ t, runChecked (.init :: .seed v :: is) (State.resetWith p) = .next t ∧ t.faultMark = none) ∧
    (∃ t, runChecked (.seed v :: .init :: is) (State.resetWith p) = .next t ∧ t.faultMark = none)

/-- R21: a program that runs without a fault with TABLE_RESET_BUILT false does so with true, with the same responses. -/
def Obligations.CorrectWithoutRomIsCorrectWithRom : Prop :=
  ∀ (is : List Instr) (t : State), runChecked is (State.resetWith false) = .next t →
    ∃ t', runChecked is (State.resetWith true) = .next t' ∧ t'.responses = t.responses ∧ t'.accValue = t.accValue

/-- The model's choice (log entries 4 and 5): a host that presents only legal words never stops the machine, however long it
runs. That a use before INIT or before SEED goes on follows the hardware (R66, R79, R80's hardware column); the spec's
recommended model stops there (R86; `checkedStep`). -/
def Obligations.LegalRunsNeverStop : Prop :=
  ∀ (s : State) (k : Nat), edgesLegal s.edges = true → ∃ t, Host.Core.run core k s = .next t

/-- R69, R70: UPDATE from a built table responds `update(buf, seed)` and leaves `fold(NOT seed, buf)`; the bytes of a buffer
from a seeded ACC leave `fold(ACC, buf)`; neither can fault. `fold` and `update` are the rule's recursive equations. -/
def Obligations.UpdateCommandsComputeUpdate : Prop :=
  (∀ c, crcFold c [] = c) ∧
  (∀ c b rest, crcFold c (b :: rest) = crcFold (entry (b ^^^ c.extractLsb' 0 8) ^^^ (c >>> 8)) rest) ∧
  (∀ buf seed, crcUpdate buf seed = ~~~crcFold (~~~seed) buf) ∧
  (∀ (s : State) (buf : List Byte) (seed : Word), s.built = true → TableHolds s.table → s.faultMark = none →
    runChecked (expand (.update seed buf)) s = .next { s with
      acc := crcFold (~~~seed) buf, seeded := true, responses := s.responses ++ [crcUpdate buf seed] } ∧
    crcFold (~~~seed) buf = ~~~crcUpdate buf seed) ∧
  (∀ (s : State) (buf : List Byte), s.built = true → TableHolds s.table → s.seeded = true → s.faultMark = none →
    runChecked (byteCommands buf) s = .next { s with acc := crcFold s.acc buf })

/-- R39, R69, R70: the same at the command port: presented edge by edge, UPDATE takes one accepted edge per command and
leaves the rest of the port's edges alone. -/
def Obligations.UpdateAtThePort : Prop :=
  ∀ (s : State) (buf : List Byte) (seed : Word), s.built = true → TableHolds s.table →
    Host.Core.run core (buf.length + 2) { s with edges := edgesOf (expand (.update seed buf)) ++ s.edges } =
      .next { s with
        acc := crcFold (~~~seed) buf, seeded := true, responses := s.responses ++ [crcUpdate buf seed] }

/-- R71: the identity law, of the function and of the commands, from every state. -/
def Obligations.IdentityLaw : Prop :=
  (∀ seed : Word, crcUpdate [] seed = seed) ∧
  (∀ (s : State) (seed : Word), runInstrs (expand (.update seed [])) s = runInstrs [.seed seed, .read] s ∧
    ∃ t, runInstrs [.seed seed, .read] s = .next t ∧ t.responses = s.responses ++ [seed])

/-- R72: chunking equivalence over any partition (empty chunks too), the fold law it rests on, R73's two-chunk case, and in
commands: READ then SEED of the word read, inserted anywhere, changes no later response. With a table that is not built the
last clause is the model's choice (log entries 4 and 11): both runs go on and meet the same free words, since neither READ
nor SEED draws one. -/
def Obligations.ChunkingEquivalence : Prop :=
  (∀ (c : Word) (x y : List Byte), crcFold c (x ++ y) = crcFold (crcFold c x) y) ∧
  (∀ (chunks : List (List Byte)) (seed : Word), crcUpdateChunks chunks seed = crcUpdate chunks.flatten seed) ∧
  (∀ a b : List Byte, crcUpdate (a ++ b) 0 = crcUpdate b (crcUpdate a 0)) ∧
  (∀ (s t : State) (rest : List Instr), s.seeded = true → runInstrs rest s = .next t →
    ∃ out, t.responses = s.responses ++ out ∧
      runInstrs (.read :: .seed (~~~s.acc) :: rest) s =
        .next { t with responses := s.responses ++ ~~~s.acc :: out })

/-- R74: the complement at both ends is an XOR with all ones, changes every value, and a raw in-progress value is presented
complemented. -/
def Obligations.ComplementIdiom : Prop :=
  (∀ v : Word, complementIn v = ~~~v ∧ complementOut v = ~~~v ∧ ~~~v = v ^^^ 0xFFFFFFFF#32 ∧
    complementIn v ≠ v ∧ complementOut v ≠ v) ∧
  (∀ (s : State) (c : Word), exec (.seed (~~~c)) s = .next { s with acc := c, seeded := true }) ∧
  (∀ s : State, exec (.seed 0x00000000#32) s = .next { s with acc := 0xFFFFFFFF#32, seeded := true }) ∧
  (∀ s t : State, exec .read s = .next t → t.responses = s.responses ++ [~~~s.acc])

/-- R75: READ, then any commands (none of them reset), then SEED of the word read restores ACC exactly. That the commands
between complete also where one reads a table that is not built is the model's choice (log entry 4). -/
def Obligations.SaveAndRestore : Prop :=
  ∀ (s : State) (between : List Instr), s.seeded = true →
    ∃ t u v, runInstrs (.read :: between) s = .next t ∧
      t.responses.getD s.responses.length 0 = v ∧ v = ~~~s.acc ∧
      exec (.seed v) t = .next u ∧ u.acc = s.acc ∧ u.accValue = s.accValue

/-- R76: one BYTE equals eight division steps of the accumulator with the byte XORed into its low eight bits. -/
def Obligations.ByteAgreesWithBitSerialDivision : Prop :=
  (∀ (b : Byte) (acc : Word),
    entry (b ^^^ acc.extractLsb' 0 8) ^^^ (acc >>> 8) = step1Times 8 (acc ^^^ b.setWidth 32)) ∧
  (∀ (s : State) (b : Byte), s.built = true → TableHolds s.table → s.seeded = true →
    exec (.byte b) s = .next { s with acc := step1Times 8 (s.acc ^^^ b.setWidth 32) })

/-- R77: two streams of equal length that differ in one byte, anywhere, have different checksums (so every single-bit flip
changes the checksum, which the spec says is to be proved and never assumed). -/
def Obligations.OneChangedByteChangesChecksum : Prop :=
  ∀ (before after : List Byte) (b b' : Byte) (seed : Word), b ≠ b' →
    crcUpdate (before ++ b :: after) seed ≠ crcUpdate (before ++ b' :: after) seed

/-- R78: with a built table and a seeded ACC, two histories that leave the same ACC are indistinguishable afterwards: every
command sequence completes without a fault and draws the same responses and the same ACC from both. -/
def Obligations.SameAccSameFuture : Prop :=
  ∀ (s s' : State) (is : List Instr),
    s.built = true → TableHolds s.table → s'.built = true → TableHolds s'.table →
    s.seeded = true → s'.seeded = true → s.acc = s'.acc →
    ∃ t t' out, runInstrs is s = .next t ∧ runInstrs is s' = .next t' ∧ t.acc = t'.acc ∧
      t.responses = s.responses ++ out ∧ t'.responses = s'.responses ++ out ∧
      t.faultMark = s.faultMark ∧ t'.faultMark = s'.faultMark

/-- R50: what each assembler line in range encodes as, and that an operand out of range is an error. -/
def Obligations.AssemblerLinesEncode : Prop :=
  assemble .init = some 0x000000000#35 ∧ assemble .read = some 0x300000000#35 ∧
  (∀ v : Nat, assemble (.seed v) = if v ≤ 0xFFFFFFFF then some (BitVec.ofNat 35 (0x100000000 + v)) else none) ∧
  (∀ b : Nat, assemble (.byte b) = if b ≤ 0xFF then some (BitVec.ofNat 35 (0x200000000 + b)) else none) ∧
  (∀ c : Char, 0x20 ≤ c.toNat → c.toNat ≤ 0x7E →
    assemble (.byteChar c) = some (BitVec.ofNat 35 (0x200000000 + c.toNat))) ∧
  (∀ i : Nat, assemble (.romrd i) = if i ≤ 0xFF then some (BitVec.ofNat 35 (0x400000000 + i)) else none)

/-- R90, R35: a command at one engine leaves every other engine's accumulator and responses as they were, and with the shared
table built no engine can tell what another has executed. The second clause has every command answer a next state. For READ and
BYTE of an unseeded engine that is the model's choice (log entry 5): R82 and R86 give the spec's recommended model the fault, with no
successor. So is it for a command named at an engine beyond the last, which changes nothing (log entry 12), and that an INIT of
a built table is whole at the edge that accepts it (log entry 21). -/
def Obligations.EnginesDoNotInterfere : Prop :=
  (∀ (m m' : Engines) (k : Nat) (i : Instr), m.exec k i = .next m' →
    m'.lanes.length = m.lanes.length ∧ ∀ j, j ≠ k → m'.lanes[j]? = m.lanes[j]?) ∧
  (∀ (m : Engines) (j k : Nat) (i i' : Instr), EnginesBuilt m → j ≠ k →
    ∃ m1 m2 m3, m.exec k i = .next m1 ∧ EnginesBuilt m1 ∧ m1.table = m.table ∧
      m1.exec j i' = .next m2 ∧ m.exec j i' = .next m3 ∧ m2.lanes[j]? = m3.lanes[j]?)

/-- R90: the product is made of copies of the single-engine machine: an edge at engine `k`'s port does to that engine, seen
through the shared table, what the single machine's step does, whether reset, command, refusal or nothing; and an edge that
accepts a legal word runs the decoded command there. Three cases R90 does not give. That a reset edge at one engine puts the
shared `BUILT` and `T` into their reset state is the model's choice (log entry 12), as is the free word its ACC then takes, the
single machine's next one (log entries 3 and 11). So is that a refusal at one engine is the whole product's (log entry 20), and
that an INIT is in the shared table from the edge that accepts it (log entry 21). -/
def Obligations.EngineStepIsTheSingleMachines : Prop :=
  (∀ (m : Engines) (k : Nat) (l : Lane), m.lanes[k]? = some l →
    (∀ t, step (m.view l) = .next t →
      ∃ m' l', m.step k = .next m' ∧ m'.lanes[k]? = some l' ∧ m'.view l' = t) ∧
    (∀ r, step (m.view l) = .refused r → m.step k = .refused r)) ∧
  (∀ (m : Engines) (k : Nat) (l : Lane) (e : PortEdge) (es : List PortEdge) (i : Instr),
    m.lanes[k]? = some l → l.edges = e :: es → e.rst = false → e.cmdValid = true → e.cmdReady = true →
    decode e.word = .ok i →
    m.step k = Engines.exec { m with lanes := m.lanes.set k { l with edges := es } } k i)

/-- R90, R35, at the ports: an edge at one engine leaves every other engine's accumulator, ports, mark and responses as they
were; and with the shared table built, an edge at engine `k` that is no reset leaves the shared table built and unchanged, and
what an edge at engine `j` then shows there (a refusal too) is what it would have shown without it. That a reset edge at one
engine resets the shared table is the model's choice (log entry 12), and so is that a refusal at one engine, after which this
says nothing, ends the whole product (log entry 20). A reset edge at `j` is not left out: the ACC it leaves R21 does not specify,
and that it is the same free word in both is the model's choice, a comparison by draws, the counter being equal in both (log
entries 3, 11). So is that a READ or BYTE of an unseeded engine goes on at all (log entry 5), and that an INIT of a built table
is whole at the edge that accepts it (log entry 21). -/
def Obligations.EnginePortsDoNotInterfere : Prop :=
  (∀ (m m' : Engines) (k : Nat), m.step k = .next m' →
    m'.lanes.length = m.lanes.length ∧ ∀ j, j ≠ k → m'.lanes[j]? = m.lanes[j]?) ∧
  (∀ (m m1 : Engines) (j k : Nat), EnginesBuilt m → j ≠ k → m.step k = .next m1 →
    (∀ l e es, m.lanes[k]? = some l → l.edges = e :: es → e.rst = false) →
    EnginesBuilt m1 ∧ m1.table = m.table ∧ laneSeen j (m1.step j) = laneSeen j (m.step j))
end

