-- ==== Sys2Proof/Laws/State.lean ====
section
/-! SUPPORT. One lemma per field per update of State, each true by rfl, so that no later proof unfolds a record update. -/

namespace Sys2Proof.Laws

open Sys2Proof.Machine

@[simp] theorem setAcc_built (s : State) (v : Word) : (s.setAcc v).built = s.built := rfl
@[simp] theorem setAcc_acc (s : State) (v : Word) : (s.setAcc v).acc = v := rfl
@[simp] theorem setAcc_seeded (s : State) (v : Word) : (s.setAcc v).seeded = s.seeded := rfl
@[simp] theorem setAcc_table (s : State) (v : Word) : (s.setAcc v).table = s.table := rfl
@[simp] theorem setAcc_tableResetBuilt (s : State) (v : Word) : (s.setAcc v).tableResetBuilt = s.tableResetBuilt := rfl
@[simp] theorem setAcc_faultMark (s : State) (v : Word) : (s.setAcc v).faultMark = s.faultMark := rfl
@[simp] theorem setAcc_responses (s : State) (v : Word) : (s.setAcc v).responses = s.responses := rfl
@[simp] theorem setAcc_edges (s : State) (v : Word) : (s.setAcc v).edges = s.edges := rfl
@[simp] theorem setAcc_draws (s : State) (v : Word) : (s.setAcc v).draws = s.draws := rfl

@[simp] theorem seedAcc_built (s : State) (v : Word) : (s.seedAcc v).built = s.built := rfl
@[simp] theorem seedAcc_acc (s : State) (v : Word) : (s.seedAcc v).acc = v := rfl
@[simp] theorem seedAcc_seeded (s : State) (v : Word) : (s.seedAcc v).seeded = true := rfl
@[simp] theorem seedAcc_table (s : State) (v : Word) : (s.seedAcc v).table = s.table := rfl
@[simp] theorem seedAcc_tableResetBuilt (s : State) (v : Word) : (s.seedAcc v).tableResetBuilt = s.tableResetBuilt := rfl
@[simp] theorem seedAcc_faultMark (s : State) (v : Word) : (s.seedAcc v).faultMark = s.faultMark := rfl
@[simp] theorem seedAcc_responses (s : State) (v : Word) : (s.seedAcc v).responses = s.responses := rfl
@[simp] theorem seedAcc_edges (s : State) (v : Word) : (s.seedAcc v).edges = s.edges := rfl
@[simp] theorem seedAcc_draws (s : State) (v : Word) : (s.seedAcc v).draws = s.draws := rfl

@[simp] theorem setBuiltTable_built (s : State) (t : Table) : (s.setBuiltTable t).built = true := rfl
@[simp] theorem setBuiltTable_acc (s : State) (t : Table) : (s.setBuiltTable t).acc = s.acc := rfl
@[simp] theorem setBuiltTable_seeded (s : State) (t : Table) : (s.setBuiltTable t).seeded = s.seeded := rfl
@[simp] theorem setBuiltTable_table (s : State) (t : Table) : (s.setBuiltTable t).table = t := rfl
@[simp] theorem setBuiltTable_tableResetBuilt (s : State) (t : Table) : (s.setBuiltTable t).tableResetBuilt = s.tableResetBuilt := rfl
@[simp] theorem setBuiltTable_faultMark (s : State) (t : Table) : (s.setBuiltTable t).faultMark = s.faultMark := rfl
@[simp] theorem setBuiltTable_responses (s : State) (t : Table) : (s.setBuiltTable t).responses = s.responses := rfl
@[simp] theorem setBuiltTable_edges (s : State) (t : Table) : (s.setBuiltTable t).edges = s.edges := rfl
@[simp] theorem setBuiltTable_draws (s : State) (t : Table) : (s.setBuiltTable t).draws = s.draws := rfl

@[simp] theorem respond_built (s : State) (v : Word) : (s.respond v).built = s.built := rfl
@[simp] theorem respond_acc (s : State) (v : Word) : (s.respond v).acc = s.acc := rfl
@[simp] theorem respond_seeded (s : State) (v : Word) : (s.respond v).seeded = s.seeded := rfl
@[simp] theorem respond_table (s : State) (v : Word) : (s.respond v).table = s.table := rfl
@[simp] theorem respond_tableResetBuilt (s : State) (v : Word) : (s.respond v).tableResetBuilt = s.tableResetBuilt := rfl
@[simp] theorem respond_faultMark (s : State) (v : Word) : (s.respond v).faultMark = s.faultMark := rfl
@[simp] theorem respond_responses (s : State) (v : Word) : (s.respond v).responses = s.responses ++ [v] := rfl
@[simp] theorem respond_edges (s : State) (v : Word) : (s.respond v).edges = s.edges := rfl
@[simp] theorem respond_draws (s : State) (v : Word) : (s.respond v).draws = s.draws := rfl

@[simp] theorem mark_built (s : State) (f : Option Fault) : (s.mark f).built = s.built := rfl
@[simp] theorem mark_acc (s : State) (f : Option Fault) : (s.mark f).acc = s.acc := rfl
@[simp] theorem mark_seeded (s : State) (f : Option Fault) : (s.mark f).seeded = s.seeded := rfl
@[simp] theorem mark_table (s : State) (f : Option Fault) : (s.mark f).table = s.table := rfl
@[simp] theorem mark_tableResetBuilt (s : State) (f : Option Fault) : (s.mark f).tableResetBuilt = s.tableResetBuilt := rfl
@[simp] theorem mark_faultMark (s : State) (f : Option Fault) : (s.mark f).faultMark = s.faultMark.or f := rfl
@[simp] theorem mark_responses (s : State) (f : Option Fault) : (s.mark f).responses = s.responses := rfl
@[simp] theorem mark_edges (s : State) (f : Option Fault) : (s.mark f).edges = s.edges := rfl
@[simp] theorem mark_draws (s : State) (f : Option Fault) : (s.mark f).draws = s.draws := rfl

@[simp] theorem draw_built (s : State) : (s.draw.2).built = s.built := rfl
@[simp] theorem draw_acc (s : State) : (s.draw.2).acc = s.acc := rfl
@[simp] theorem draw_seeded (s : State) : (s.draw.2).seeded = s.seeded := rfl
@[simp] theorem draw_table (s : State) : (s.draw.2).table = s.table := rfl
@[simp] theorem draw_tableResetBuilt (s : State) : (s.draw.2).tableResetBuilt = s.tableResetBuilt := rfl
@[simp] theorem draw_faultMark (s : State) : (s.draw.2).faultMark = s.faultMark := rfl
@[simp] theorem draw_responses (s : State) : (s.draw.2).responses = s.responses := rfl
@[simp] theorem draw_edges (s : State) : (s.draw.2).edges = s.edges := rfl
@[simp] theorem draw_draws (s : State) : (s.draw.2).draws = s.draws + 1 := rfl

@[simp] theorem present_built (s : State) (w : CmdWord) : (s.present w).built = s.built := rfl
@[simp] theorem present_acc (s : State) (w : CmdWord) : (s.present w).acc = s.acc := rfl
@[simp] theorem present_seeded (s : State) (w : CmdWord) : (s.present w).seeded = s.seeded := rfl
@[simp] theorem present_table (s : State) (w : CmdWord) : (s.present w).table = s.table := rfl
@[simp] theorem present_tableResetBuilt (s : State) (w : CmdWord) : (s.present w).tableResetBuilt = s.tableResetBuilt := rfl
@[simp] theorem present_faultMark (s : State) (w : CmdWord) : (s.present w).faultMark = s.faultMark := rfl
@[simp] theorem present_responses (s : State) (w : CmdWord) : (s.present w).responses = s.responses := rfl
@[simp] theorem present_edges (s : State) (w : CmdWord) : (s.present w).edges = PortEdge.accepting w :: s.edges := rfl
@[simp] theorem present_draws (s : State) (w : CmdWord) : (s.present w).draws = s.draws := rfl

@[simp] theorem applyReset_built (s : State) : (s.applyReset).built = s.tableResetBuilt := rfl
@[simp] theorem applyReset_acc (s : State) : (s.applyReset).acc = Config.freeWord s.draws := rfl
@[simp] theorem applyReset_seeded (s : State) : (s.applyReset).seeded = false := rfl
@[simp] theorem applyReset_table (s : State) : (s.applyReset).table = resetTable s.tableResetBuilt := rfl
@[simp] theorem applyReset_tableResetBuilt (s : State) : (s.applyReset).tableResetBuilt = s.tableResetBuilt := rfl
@[simp] theorem applyReset_faultMark (s : State) : (s.applyReset).faultMark = none := rfl
@[simp] theorem applyReset_responses (s : State) : (s.applyReset).responses = [] := rfl
@[simp] theorem applyReset_edges (s : State) : (s.applyReset).edges = s.edges := rfl
@[simp] theorem applyReset_draws (s : State) : (s.applyReset).draws = s.draws + 1 := rfl

@[simp] theorem draw_word (s : State) : s.draw.1 = Config.freeWord s.draws := rfl

@[simp] theorem resetWith_built (p : Bool) : (State.resetWith p).built = p := rfl
@[simp] theorem resetWith_acc (p : Bool) : (State.resetWith p).acc = Config.freeWord 0 := rfl
@[simp] theorem resetWith_seeded (p : Bool) : (State.resetWith p).seeded = false := rfl
@[simp] theorem resetWith_table (p : Bool) : (State.resetWith p).table = resetTable p := rfl
@[simp] theorem resetWith_tableResetBuilt (p : Bool) : (State.resetWith p).tableResetBuilt = p := rfl
@[simp] theorem resetWith_faultMark (p : Bool) : (State.resetWith p).faultMark = none := rfl
@[simp] theorem resetWith_responses (p : Bool) : (State.resetWith p).responses = [] := rfl
@[simp] theorem resetWith_edges (p : Bool) : (State.resetWith p).edges = [] := rfl
@[simp] theorem resetWith_draws (p : Bool) : (State.resetWith p).draws = 1 := rfl

end Sys2Proof.Laws
end

