-- ==== Sys2Proof/Laws/Table.lean ====
section
/-! SUPPORT. The table's laws: read after write, the canonical form kept by every operation, and what building leaves. -/

namespace Sys2Proof.Laws

open Sys2Proof.Machine Sys2Proof.Safety

theorem read_write_same (t : Table) (i : Nat) (v : Word) : (t.write i v).read i = some v := by
  induction t with
  | nil => simp [Table.write, Table.read]
  | cons c t ih =>
    obtain ⟨a, u⟩ := c
    unfold Table.write
    split
    · simp [Table.read]
    · split
      · simp [Table.read]
      · next h => simp [Table.read, Ne.symm h, ih]

theorem read_write_other (t : Table) {i j : Nat} (v : Word) (h : j ≠ i) : (t.write i v).read j = t.read j := by
  induction t with
  | nil => simp [Table.write, Table.read, Ne.symm h]
  | cons c t ih =>
    obtain ⟨a, u⟩ := c
    unfold Table.write
    split
    · simp [Table.read, Ne.symm h]
    · split
      · next e => subst e; simp [Table.read, Ne.symm h]
      · simp [Table.read, ih]

@[simp] theorem risingFrom_cons (lo a : Nat) (u : Word) (t : Table) :
    Table.risingFrom lo ((a, u) :: t) = true ↔
      lo ≤ a ∧ a < Config.tableDepth ∧ Table.risingFrom (a + 1) t = true := by
  simp [Table.risingFrom, and_assoc]

theorem risingFrom_write {t : Table} {lo i : Nat} (v : Word) (h : Table.risingFrom lo t = true) (hl : lo ≤ i)
    (hi : i < Config.tableDepth) : Table.risingFrom lo (t.write i v) = true := by
  induction t generalizing lo with
  | nil => simp [Table.write, Table.risingFrom, hl, hi]
  | cons c t ih =>
    obtain ⟨a, u⟩ := c
    rw [risingFrom_cons] at h
    obtain ⟨h1, h2, h3⟩ := h
    unfold Table.write
    split
    · next hlt => simp [hl, hi, Nat.succ_le_of_lt hlt, h2, h3]
    · split
      · next e => subst e; simp [h1, h2, h3]
      · next h4 h5 =>
        rw [risingFrom_cons]
        exact ⟨h1, h2, ih h3 (by omega)⟩

/-- A write of an index of the table keeps the canonical form. -/
theorem wf_write {t : Table} {i : Nat} (v : Word) (h : t.wf = true) (hi : i < Config.tableDepth) :
    (t.write i v).wf = true :=
  risingFrom_write v h (Nat.zero_le i) hi

theorem wf_buildFrom {t : Table} {is : List Nat} (h : t.wf = true) (hi : ∀ i ∈ is, i < Config.tableDepth) :
    (buildFrom t is).wf = true := by
  induction is generalizing t with
  | nil => exact h
  | cons i is ih =>
    exact ih (wf_write _ h (hi i (by simp))) (fun j hj => hi j (by simp [hj]))

/-- Building keeps the canonical form. -/
theorem wf_buildTable {t : Table} (h : t.wf = true) : (buildTable t).wf = true := by
  unfold buildTable
  exact wf_buildFrom h (by simp)

/-- The reset table is in canonical form, for either value of the parameter. -/
theorem wf_resetTable (p : Bool) : (resetTable p).wf = true := by
  unfold resetTable
  split
  · exact wf_buildTable rfl
  · rfl

theorem buildFrom_read_other {t : Table} {is : List Nat} {j : Nat} (hj : j ∉ is) :
    (buildFrom t is).read j = t.read j := by
  induction is generalizing t with
  | nil => rfl
  | cons i is ih =>
    simp only [List.mem_cons, not_or] at hj
    exact (ih hj.2).trans (read_write_other t _ hj.1)

theorem buildFrom_read {t : Table} {is : List Nat} {j : Nat} (hj : j ∈ is) :
    (buildFrom t is).read j = some (entry (BitVec.ofNat 8 j)) := by
  induction is generalizing t with
  | nil => simp at hj
  | cons i is ih =>
    by_cases hm : j ∈ is
    · exact ih hm
    · have : j = i := by simpa [hm] using hj
      subst this
      exact (buildFrom_read_other hm).trans (read_write_same t _ _)

/-- R57: after building, every word is `entry` of its index, whatever the table held before. -/
theorem tableHolds_buildTable (t : Table) : TableHolds (buildTable t) := by
  unfold buildTable TableHolds
  intro i
  have h := buildFrom_read (t := t) (is := List.range Config.tableDepth) (j := i.toNat)
    (by simpa [Config.tableDepth] using i.isLt)
  rwa [BitVec.ofNat_toNat, BitVec.setWidth_eq] at h

/-- Building leaves an index that is no table index as it was. -/
theorem buildTable_read_other (t : Table) {n : Nat} (hn : Config.tableDepth ≤ n) :
    (buildTable t).read n = t.read n := by
  unfold buildTable
  exact buildFrom_read_other (by simpa using hn)

theorem read_eq_none_below {t : Table} {lo i : Nat} (h : Table.risingFrom lo t = true) (hi : i < lo) :
    t.read i = none := by
  induction t generalizing lo with
  | nil => rfl
  | cons c t ih =>
    obtain ⟨a, u⟩ := c
    rw [risingFrom_cons] at h
    have : a ≠ i := by omega
    simp only [Table.read, this, if_false]
    exact ih h.2.2 (by omega)

theorem read_eq_none_above {t : Table} {lo i : Nat} (h : Table.risingFrom lo t = true) (hi : Config.tableDepth ≤ i) :
    t.read i = none := by
  induction t generalizing lo with
  | nil => rfl
  | cons c t ih =>
    obtain ⟨a, u⟩ := c
    rw [risingFrom_cons] at h
    have : a ≠ i := by omega
    simp only [Table.read, this, if_false]
    exact ih h.2.2

/-- Tables in canonical form that read alike are equal. -/
theorem eq_of_read_eq {t t' : Table} {lo lo' : Nat} (h : Table.risingFrom lo t = true)
    (h' : Table.risingFrom lo' t' = true) (e : ∀ i, t.read i = t'.read i) : t = t' := by
  induction t generalizing lo lo' t' with
  | nil =>
    cases t' with
    | nil => rfl
    | cons c t' => simpa [Table.read] using e c.1
  | cons c t ih =>
    obtain ⟨a, u⟩ := c
    cases t' with
    | nil => simpa [Table.read] using e a
    | cons c' t' =>
      obtain ⟨a', u'⟩ := c'
      rw [risingFrom_cons] at h h'
      have haa : a = a' := by
        by_contra hne
        rcases Nat.lt_or_gt_of_ne hne with hlt | hlt
        · have := e a
          simp [Table.read, Ne.symm hne, read_eq_none_below h'.2.2 (by omega : a < a' + 1)] at this
        · have := e a'
          simp [Table.read, hne, read_eq_none_below h.2.2 (by omega : a' < a + 1)] at this
      subst haa
      have hu : u = u' := by simpa [Table.read] using e a
      subst hu
      refine congrArg _ (ih h.2.2 h'.2.2 fun i => ?_)
      by_cases hi : a = i
      · subst hi
        rw [read_eq_none_below h.2.2 (Nat.lt_succ_self a), read_eq_none_below h'.2.2 (Nat.lt_succ_self a)]
      · simpa [Table.read, hi] using e i

/-- Tables in canonical form that both hold `entry` are equal. -/
theorem eq_of_tableHolds {t t' : Table} (h : t.wf = true) (h' : t'.wf = true) (e : TableHolds t) (e' : TableHolds t') :
    t = t' := by
  refine eq_of_read_eq h h' fun i => ?_
  by_cases hi : i < 256
  · have h1 := e (BitVec.ofNat 8 i)
    have h2 := e' (BitVec.ofNat 8 i)
    simp only [BitVec.toNat_ofNat, Nat.reducePow, Nat.mod_eq_of_lt hi] at h1 h2
    rw [h1, h2]
  · have hd : Config.tableDepth ≤ i := Nat.le_of_not_lt hi
    rw [read_eq_none_above h hd, read_eq_none_above h' hd]

/-- Building a table that is built and in form changes nothing. -/
theorem buildTable_of_tableHolds {t : Table} (h : t.wf = true) (e : TableHolds t) : buildTable t = t :=
  eq_of_tableHolds (wf_buildTable h) h (tableHolds_buildTable t) e

/-- The ROM of `TABLE_RESET_BUILT = true` holds `entry`. -/
theorem tableHolds_resetTable : TableHolds (resetTable true) := tableHolds_buildTable []

end Sys2Proof.Laws
end

