-- ==== Sys2Proof/Laws/Ops.lean ====
section
/-! SUPPORT. One spec lemma per shared operation, one inversion lemma per transition function: later proofs cite these. -/

namespace Sys2Proof.Laws

open Sys2Proof.Machine Sys2Proof.Safety

/-- A read of the table takes the stored word, or else draws. -/
theorem romRead_cases (s : State) (i : Byte) :
    (∃ w, s.storedWord i = some w ∧ s.romRead i = (w, s)) ∨ (s.storedWord i = none ∧ s.romRead i = s.draw) := by
  unfold State.romRead
  cases h : s.storedWord i with
  | some w => exact .inl ⟨w, rfl, rfl⟩
  | none => exact .inr ⟨rfl, rfl⟩

/-- With the table built and holding `entry`, a read takes `entry` and changes nothing. -/
theorem romRead_built {s : State} (hb : s.built = true) (ht : TableHolds s.table) (i : Byte) :
    s.romRead i = (entry i, s) := by
  simp [State.romRead, State.storedWord, hb, ht i]

/-- With `BUILT = 0` a read draws a free word. -/
theorem romRead_unbuilt {s : State} (hb : s.built = false) (i : Byte) : s.romRead i = s.draw := by
  simp [State.romRead, State.storedWord, hb]

@[simp] theorem romRead_keeps_built (s : State) (i : Byte) : (s.romRead i).2.built = s.built := by
  rcases romRead_cases s i with ⟨w, -, h⟩ | ⟨-, h⟩ <;> simp [h]

@[simp] theorem romRead_keeps_acc (s : State) (i : Byte) : (s.romRead i).2.acc = s.acc := by
  rcases romRead_cases s i with ⟨w, -, h⟩ | ⟨-, h⟩ <;> simp [h]

@[simp] theorem romRead_keeps_seeded (s : State) (i : Byte) : (s.romRead i).2.seeded = s.seeded := by
  rcases romRead_cases s i with ⟨w, -, h⟩ | ⟨-, h⟩ <;> simp [h]

@[simp] theorem romRead_keeps_table (s : State) (i : Byte) : (s.romRead i).2.table = s.table := by
  rcases romRead_cases s i with ⟨w, -, h⟩ | ⟨-, h⟩ <;> simp [h]

@[simp] theorem romRead_keeps_tableResetBuilt (s : State) (i : Byte) :
    (s.romRead i).2.tableResetBuilt = s.tableResetBuilt := by
  rcases romRead_cases s i with ⟨w, -, h⟩ | ⟨-, h⟩ <;> simp [h]

@[simp] theorem romRead_keeps_faultMark (s : State) (i : Byte) : (s.romRead i).2.faultMark = s.faultMark := by
  rcases romRead_cases s i with ⟨w, -, h⟩ | ⟨-, h⟩ <;> simp [h]

@[simp] theorem romRead_keeps_responses (s : State) (i : Byte) : (s.romRead i).2.responses = s.responses := by
  rcases romRead_cases s i with ⟨w, -, h⟩ | ⟨-, h⟩ <;> simp [h]

@[simp] theorem romRead_keeps_edges (s : State) (i : Byte) : (s.romRead i).2.edges = s.edges := by
  rcases romRead_cases s i with ⟨w, -, h⟩ | ⟨-, h⟩ <;> simp [h]

/-- No command stops. -/
theorem exec_next (i : Instr) (s : State) : ∃ t, exec i s = .next t := by
  cases i <;> exact ⟨_, rfl⟩

/-- What each command's next state is. -/
theorem exec_cases {i : Instr} {s t : State} (h : exec i s = .next t) :
    (i = .init ∧ t = s.setBuiltTable (buildTable s.table)) ∨
    (∃ v, i = .seed v ∧ t = s.seedAcc (complementIn v)) ∨
    (∃ b, i = .byte b ∧ t =
      ((s.romRead (tableIndex b s.acc)).2.setAcc (nextAcc (s.romRead (tableIndex b s.acc)).1 s.acc)).mark s.byteCheck) ∨
    (i = .read ∧ t = (s.respond (complementOut s.acc)).mark s.accCheck) ∨
    (∃ x, i = .romrd x ∧ t = ((s.romRead x).2.respond (s.romRead x).1).mark s.tableCheck) := by
  cases i <;> cases h <;> simp

/-- `cmd_ready` is low while `rst = 1` (R93). -/
theorem cmdReady_of_rst {e : PortEdge} (h : e.rst = true) : e.cmdReady = false := by
  simp [PortEdge.cmdReady, h]

/-- Without reset `cmd_ready` is what the schedule has. -/
theorem cmdReady_of_not_rst {e : PortEdge} (h : e.rst = false) : e.cmdReady = e.canAccept := by
  simp [PortEdge.cmdReady, h]

/-- The port's events. -/
theorem event_cases (e : PortEdge) :
    (e.rst = true ∧ e.event = .reset) ∨
    (e.rst = false ∧ e.cmdValid = true ∧ e.cmdReady = true ∧ e.event = .command e.word) ∨
    (e.rst = false ∧ (e.cmdValid && e.cmdReady) = false ∧ e.event = .hold) := by
  unfold PortEdge.event PortEdge.cmdReady
  cases e.rst <;> cases e.cmdValid <;> cases e.canAccept <;> simp

/-- What a step that answers a next state did. -/
theorem step_cases {s t : State} (h : step s = .next t) :
    (s.edges = [] ∧ t = s) ∨
    ∃ e es, s.edges = e :: es ∧
      ((e.event = .reset ∧ t = State.applyReset { s with edges := es }) ∨
       (e.event = .hold ∧ t = { s with edges := es }) ∨
       ∃ w i, e.event = .command w ∧ decode w = .ok i ∧ exec i { s with edges := es } = .next t) := by
  cases he : s.edges with
  | nil =>
    simp [step, State.takeEvent, he] at h
    exact .inl ⟨rfl, h.symm⟩
  | cons e es =>
    refine .inr ⟨e, es, rfl, ?_⟩
    simp only [step, State.takeEvent, he] at h
    cases hv : e.event with
    | reset => simp only [hv] at h; cases h; exact .inl ⟨rfl, rfl⟩
    | hold => simp only [hv] at h; cases h; exact .inr (.inl ⟨rfl, rfl⟩)
    | command w =>
      simp only [hv, runWord] at h
      cases hd : decode w with
      | error r => simp [hd] at h
      | ok i => exact .inr (.inr ⟨w, i, rfl, hd, by simpa [hd] using h⟩)

/-- No step faults: the marks stand in the state (R80, log entries 4 and 5). -/
theorem step_ne_fault (s : State) (r : Fault) : step s ≠ .fault r := by
  intro h
  unfold step at h
  split at h
  · cases h
  · unfold runWord at h
    split at h
    · next i _ =>
      obtain ⟨t, ht⟩ := exec_next i s.takeEvent.2
      rw [ht] at h
      cases h
    · cases h
  · cases h

/-- A run goes on from a step's next state. -/
theorem run_succ_of_next {s t : State} (k : Nat) (h : step s = .next t) :
    Host.Core.run core (k + 1) s = Host.Core.run core k t := by
  simp only [Host.Core.run, show core.step s = .next t from h]

/-- A command list goes on from its first command's next state. -/
theorem runInstrs_cons_of_next {i : Instr} {s t : State} (is : List Instr) (h : exec i s = .next t) :
    runInstrs (i :: is) s = runInstrs is t := by
  simp only [runInstrs, h]

/-- A stopping run goes on from its first command's next state while nothing is recorded. -/
theorem runChecked_cons_of_next {i : Instr} {s t : State} (is : List Instr) (h : exec i s = .next t)
    (hm : t.faultMark = none) : runChecked (i :: is) s = runChecked is t := by
  simp only [runChecked, checkedExec, h, stopAtMark, hm]

/-- Presenting a word makes it the next event. -/
theorem takeEvent_present (s : State) (w : CmdWord) : (s.present w).takeEvent = (.command w, s) := by
  have hw : (PortEdge.accepting w).word = w := by
    simp only [PortEdge.word, PortEdge.accepting, commandWord, opField, argField]
    apply BitVec.eq_of_getLsbD_eq
    intro i hi
    simp only [BitVec.getLsbD_append, BitVec.getLsbD_extractLsb']
    by_cases h : i < 32
    · simp [h]
    · have : 32 + (i - 32) = i := by omega
      simp [h, this]
      omega
  simp only [State.takeEvent, State.present, PortEdge.event]
  rw [hw]
  simp [PortEdge.accepting, PortEdge.cmdReady]

end Sys2Proof.Laws
end

