-- ==== Sys2Proof/Laws/Engines.lean ====
section
/-! SUPPORT. The product of engines (60_exceptions.md R90): the small lemmas of `view`, `put` and `atEngine`. -/

namespace Sys2Proof.Laws

open Sys2Proof.Machine Sys2Proof.Safety

@[simp] theorem view_laneOf_put (m : Engines) (k : Nat) (s : State) : (m.put k s).view (laneOf s) = s := rfl

@[simp] theorem put_lanes (m : Engines) (k : Nat) (s : State) : (m.put k s).lanes = m.lanes.set k (laneOf s) := rfl

theorem put_lane_same {m : Engines} {k : Nat} {l : Lane} (s : State) (h : m.lanes[k]? = some l) :
    (m.put k s).lanes[k]? = some (laneOf s) := by
  obtain ⟨hk, -⟩ := List.getElem?_eq_some_iff.1 h
  simp [hk]

theorem put_lane_other (m : Engines) {j k : Nat} (s : State) (h : j ≠ k) : (m.put k s).lanes[j]? = m.lanes[j]? := by
  simp [Ne.symm h]

/-- Beyond the last engine nothing happens. -/
theorem atEngine_none {m : Engines} {k : Nat} {f : State → Host.Outcome State Fault Refusal} (h : m.lanes[k]? = none) :
    m.atEngine k f = .next m := by
  simp [Engines.atEngine, h]

/-- What happens at an engine is what happens to its view. -/
theorem atEngine_next {m : Engines} {k : Nat} {f : State → Host.Outcome State Fault Refusal} {l : Lane} {t : State}
    (h : m.lanes[k]? = some l) (ht : f (m.view l) = .next t) : m.atEngine k f = .next (m.put k t) := by
  simp [Engines.atEngine, h, ht]

theorem atEngine_refused {m : Engines} {k : Nat} {f : State → Host.Outcome State Fault Refusal} {l : Lane} {r : Refusal}
    (h : m.lanes[k]? = some l) (hr : f (m.view l) = .refused r) : m.atEngine k f = .refused r := by
  simp [Engines.atEngine, h, hr]

/-- A next state of the product: nothing happened, or one engine's view made its step. -/
theorem atEngine_cases {m m' : Engines} {k : Nat} {f : State → Host.Outcome State Fault Refusal}
    (h : m.atEngine k f = .next m') :
    (m.lanes[k]? = none ∧ m' = m) ∨ ∃ l t, m.lanes[k]? = some l ∧ f (m.view l) = .next t ∧ m' = m.put k t := by
  cases hl : m.lanes[k]? with
  | none =>
    rw [atEngine_none hl] at h
    cases h
    exact .inl ⟨rfl, rfl⟩
  | some l =>
    cases hf : f (m.view l) with
    | next t =>
      rw [atEngine_next hl hf] at h
      cases h
      exact .inr ⟨l, t, rfl, hf, rfl⟩
    | fault r => simp [Engines.atEngine, hl, hf] at h
    | refused r =>
      rw [atEngine_refused hl hf] at h
      cases h

end Sys2Proof.Laws
end

