-- ==== Sys2Proof/Laws/PerInstr.lean ====
section
/-! SUPPORT. Per-instruction statements about the syntax and its encoding: each command's word selects the row of R44's
match/mask form that bears the command's mnemonic, and carries the opcode of R42. -/

namespace Sys2Proof.Laws

/-- The opcode of R42. -/
def opcodeOf : Instr → Op
  | .init => 0
  | .seed _ => 1
  | .byte _ => 2
  | .read => 3
  | .romrd _ => 4

theorem commandWord_opField (op : Op) (arg : Word) : opField (commandWord op arg) = op := by
  apply BitVec.eq_of_getLsbD_eq
  intro i hi
  simp only [opField, commandWord, BitVec.getLsbD_append, BitVec.getLsbD_extractLsb', hi]
  simp

theorem commandWord_argField (op : Op) (arg : Word) : argField (commandWord op arg) = arg := by
  apply BitVec.eq_of_getLsbD_eq
  intro i hi
  simp only [argField, commandWord, BitVec.getLsbD_append, BitVec.getLsbD_extractLsb', hi]
  simp [hi]

def Encoded.Statement (i : Instr) : Prop :=
  i.wellFormed = true ∧ opField (encode i) = opcodeOf i ∧ i.row.selects (encode i) = true

theorem Encoded.init : Encoded.Statement .init := by
  refine ⟨rfl, commandWord_opField _ _, by decide⟩

/-- A seed's mask keeps the opcode alone. -/
theorem Encoded.seed (v : Word) : Encoded.Statement (.seed v) := by
  refine ⟨rfl, commandWord_opField _ _, ?_⟩
  refine decide_eq_true ?_
  simp only [Instr.row, encode, commandWord]
  apply BitVec.eq_of_getLsbD_eq
  intro i hi
  rw [BitVec.getLsbD_and, BitVec.getLsbD_append]
  interval_cases i <;> simp

theorem Encoded.byte (b : Byte) : Encoded.Statement (.byte b) := by
  refine ⟨rfl, commandWord_opField _ _, ?_⟩
  refine decide_eq_true ?_
  simp only [Instr.row, encode, commandWord]
  apply BitVec.eq_of_getLsbD_eq
  intro i hi
  rw [BitVec.getLsbD_and, BitVec.getLsbD_append, BitVec.getLsbD_setWidth]
  interval_cases i <;> simp

theorem Encoded.read : Encoded.Statement .read := by
  refine ⟨rfl, commandWord_opField _ _, by decide⟩

theorem Encoded.romrd (x : Byte) : Encoded.Statement (.romrd x) := by
  refine ⟨rfl, commandWord_opField _ _, ?_⟩
  refine decide_eq_true ?_
  simp only [Instr.row, encode, commandWord]
  apply BitVec.eq_of_getLsbD_eq
  intro i hi
  rw [BitVec.getLsbD_and, BitVec.getLsbD_append, BitVec.getLsbD_setWidth]
  interval_cases i <;> simp

end Sys2Proof.Laws
end

