-- ==== Sys2Proof/Tests/Slice0.lean ====
section
/-! SUPPORT. Tests: expected values are the spec's own (95_test_vectors.md and the rules' worked examples); then one witness
for the hypotheses of each statement. -/

namespace Sys2Proof.Tests

open Sys2Proof.Machine Sys2Proof.Safety Sys2Proof.Laws

/-! Well-formedness: an ill-formed term for each check (30_encoding.md R50, R51). -/

theorem test_seed_out_of_range : (AsmLine.seed 0x100000000).wellFormed = false := by decide
theorem test_byte_out_of_range : (AsmLine.byte 0x100).wellFormed = false := by decide
theorem test_romrd_out_of_range : (AsmLine.romrd 0x100).wellFormed = false := by decide
theorem test_char_not_printable : (AsmLine.byteChar '\n').wellFormed = false := by decide
theorem test_bytes_not_ascii : (Pseudo.bytes ['a', 'é']).wellFormed = false := by decide
theorem test_largest_operands :
    ((AsmLine.seed 0xFFFFFFFF).wellFormed && (AsmLine.byte 0xFF).wellFormed && (AsmLine.byteChar '1').wellFormed &&
      (AsmLine.romrd 0xFF).wellFormed && (Pseudo.bytes ['1']).wellFormed) = true := by decide

/-! Decoding: each command's word written out bit by bit from opcode_table.json's encoding. -/

theorem test_decode_init : decode 0b00000000000000000000000000000000000#35 = .ok .init := by decide
/-- `001` and then `s = 0x9BE3E0A3` (R64's worked example). -/
theorem test_decode_seed : decode 0b00110011011111000111110000010100011#35 = .ok (.seed 0x9BE3E0A3#32) := by decide
/-- `010`, 24 zeros, `b = 0x31` (R65's worked example). -/
theorem test_decode_byte : decode 0b01000000000000000000000000000110001#35 = .ok (.byte 0x31#8) := by decide
theorem test_decode_read : decode 0b01100000000000000000000000000000000#35 = .ok .read := by decide
/-- `100`, 24 zeros, `i = 0x80` (R61's worked example). -/
theorem test_decode_romrd : decode 0b10000000000000000000000000010000000#35 = .ok (.romrd 0x80#8) := by decide
/-- V50, V54, V57, V59: one reserved bit beside a legal word. -/
theorem test_decode_reserved_argument :
    [0x000000001#35, 0x200000100#35, 0x280000031#35, 0x380000000#35, 0x400000100#35].map decode =
      List.replicate 5 (.error .argument) := by decide
/-- V60. -/
theorem test_decode_reserved_opcode :
    [0x500000000#35, 0x600000000#35, 0x7FFFFFFFF#35].map decode = List.replicate 3 (.error .opcode) := by decide
/-- R44's patterns as the opcode table's numbers; no number has a bit above bit 34. -/
theorem test_decodeTableWord :
    [0x000000000, 0x100000000, 0x200000000, 0x300000000, 0x400000000, 0x800000000].map (decodeTableWord 40) =
      [some .init, some (.seed 0), some (.byte 0), some .read, some (.romrd 0), none] := by decide

/-! The functions that define the table (V1 to V13). -/

theorem test_step1 :
    [0x00000000#32, 0x00000001#32, 0x00000002#32, 0x80000000#32, 0xFFFFFFFF#32, 0x00000003#32].map step1 =
      [0x00000000#32, 0xEDB88320#32, 0x00000001#32, 0x40000000#32, 0x92477CDF#32, 0xEDB88321#32] := by decide
theorem test_step1Mask :
    [0xFFFFFFFF#32, 0x00000003#32, 0x00000002#32].map step1Mask = [0x92477CDF#32, 0xEDB88321#32, 0x00000001#32] := by
  decide
/-- 95_test_vectors.md section 3, column 0 of the rows 00, 28, 50, 78, A0, C8, F0 and the last word. -/
theorem test_entry :
    [0x00#8, 0x28#8, 0x50#8, 0x78#8, 0xA0#8, 0xC8#8, 0xF0#8, 0xFF#8].map entry =
      [0x00000000#32, 0x35B5A8FA#32, 0x6B6B51F4#32, 0x5EDEF90E#32, 0xD6D6A3E8#32, 0x95BF4A82#32, 0xBDBDF21C#32,
        0x2D02EF8D#32] := by decide
/-- V13. -/
theorem test_step1Times : step1Times 8 0xFFFFFFCE#32 = 0x7C231048#32 := by decide
/-- S5 and V24 (k = 4): the source's check value, in one piece and continued from the checksum of "1234". -/
theorem test_crcUpdate :
    crcUpdate [0x31#8, 0x32#8, 0x33#8, 0x34#8, 0x35#8, 0x36#8, 0x37#8, 0x38#8, 0x39#8] 0 = 0xCBF43926#32 ∧
      crcUpdate [0x35#8, 0x36#8, 0x37#8, 0x38#8, 0x39#8] 0x9BE3E0A3#32 = 0xCBF43926#32 := by
  decide +kernel
/-- V29, V31, V32, V40: a flipped bit, a swapped pair, a zero byte, an arbitrary seed. -/
theorem test_crcUpdate_variants :
    crcUpdate [0x30#8, 0x32#8, 0x33#8, 0x34#8, 0x35#8, 0x36#8, 0x37#8, 0x38#8, 0x39#8] 0 = 0xDC8F2D65#32 ∧
      crcUpdate [0x32#8, 0x31#8, 0x33#8, 0x34#8, 0x35#8, 0x36#8, 0x37#8, 0x38#8, 0x39#8] 0 = 0x7CF60200#32 ∧
      crcUpdate [0x00#8] 0 = 0xD202EF8D#32 ∧ crcUpdate [0x00#8] 0xDEADBEEF#32 = 0xE269BDDA#32 := by
  decide +kernel

/-! One command on a small state. -/

/-- A state with the table words `t`, built, and `ACC = some c`. -/
def small (t : Table) (c : Word) : State :=
  { State.resetWith false with built := true, table := t, acc := c, seeded := true }

/-- What a test looks at in a next state. -/
def seen (o : Host.Outcome State Fault Refusal) : Option (Bool × Option Word × List Word × Option Fault) :=
  match o with
  | .next t => some (t.built, t.accValue, t.responses, t.faultMark)
  | .fault _ => none
  | .refused _ => none

/-- The fault a checked outcome ends in. -/
def faultOf (o : Host.Outcome State Fault Refusal) : Option Fault :=
  match o with
  | .next _ => none
  | .fault f => some f
  | .refused _ => none

/-- V22 (R65's worked example), with the one table word it reads. -/
theorem test_byte : seen (exec (.byte 0x31#8) (small [(0xCE, 0x7CDCEFB7#32)] 0xFFFFFFFF#32)) =
    some (true, some 0x7C231048#32, [], none) := by decide
/-- V26: `b = ACC[7:0]` is a pure shift, zeros entering at the top. -/
theorem test_byte_shift : seen (exec (.byte 0x78#8) (small [(0, 0x00000000#32)] 0x12345678#32)) =
    some (true, some 0x00123456#32, [], none) := by decide
/-- R64's worked example. -/
theorem test_seed : seen (exec (.seed 0x9BE3E0A3#32) State.reset) = some (false, some 0x641C1F5C#32, [], none) := by decide
/-- V19, in the middle of a stream. -/
theorem test_seed_ones : seen (exec (.seed 0xFFFFFFFF#32) (small [] 0x12345678#32)) =
    some (true, some 0x00000000#32, [], none) := by decide
/-- V28. -/
theorem test_read : seen (exec .read (small [] 0x340BC6D9#32)) =
    some (true, some 0x340BC6D9#32, [0xCBF43926#32], none) := by decide
/-- V14 (index 0xCE), with the one table word it reads; ACC is not touched. -/
theorem test_romrd : seen (exec (.romrd 0xCE#8) (small [(0xCD, 0xE5D5BE0D#32), (0xCE, 0x7CDCEFB7#32)] 0x0BADF00D#32)) =
    some (true, some 0x0BADF00D#32, [0x7CDCEFB7#32], none) := by decide
/-- R58's worked example: ACC is still `none`. -/
theorem test_init : seen (exec .init State.reset) = some (true, none, [], none) := rfl
/-- R58's worked example: the last word. -/
theorem test_init_table : ((buildTable []).read 0xFF) = some 0x2D02EF8D#32 :=
  (tableHolds_buildTable [] 0xFF#8).trans (by decide)
/-- V42: `UseBeforeInit` is reported first. -/
theorem test_byte_from_reset : faultOf (checkedExec (.byte 0x31#8) State.reset) = some .useBeforeInit := by decide
/-- V45, V16. -/
theorem test_read_and_romrd_from_reset :
    faultOf (checkedExec .read State.reset) = some .useBeforeSeed ∧
      faultOf (checkedExec (.romrd 0x00#8) State.reset) = some .useBeforeInit := by decide

/-! The port: every row of the opcode table runs as the first command after reset, and reserved words are refused. -/

def isNext (o : Host.Outcome State Fault Refusal) : Bool :=
  match o with
  | .next _ => true
  | .fault _ => false
  | .refused _ => false

def isRefused (o : Host.Outcome State Fault Refusal) : Bool :=
  match o with
  | .next _ => false
  | .fault _ => false
  | .refused r => r = .reservedEncoding

theorem test_first_commands :
    [0x000000000, 0x100000000, 0x200000031, 0x300000000, 0x400000080].all
      (fun w => isNext (step (State.reset.withFetchWord 40 w))) = true := by decide
/-- V48. -/
theorem test_reserved_refused : isRefused (step (State.reset.withFetchWord 40 0x500000000)) = true := by decide
/-- R39: a command presented while `cmd_ready = 0` is not accepted; R93: nor is one presented at a reset edge,
where `cmd_ready` is 0 whatever the schedule has. -/
theorem test_edges :
    ({ PortEdge.accepting 0x100000000#35 with canAccept := false } : PortEdge).event = .hold ∧
      ({ PortEdge.accepting 0x100000000#35 with rst := true } : PortEdge).event = .reset ∧
      ({ PortEdge.accepting 0x100000000#35 with rst := true } : PortEdge).cmdReady = false ∧
      (PortEdge.accepting 0x100000000#35).event = .command 0x100000000#35 := by decide

/-! Notation (R50, R51, R52). -/

theorem test_parse_byte_char :
    parseLine ['B', 'Y', 'T', 'E', ' ', Char.ofNat 39, '1', Char.ofNat 39, ' ', ';', 'x'] =
      some (some (.byteChar '1')) := by decide
theorem test_parse_seed_hex : parseLine ['S', 'E', 'E', 'D', ' ', '0', 'x', '9', 'B'] = some (some (.seed 0x9B)) := by
  decide
theorem test_parse_rejects :
    parseLine ['R', 'E', 'A', 'D', ' ', '1'] = none ∧ parseLine ['r', 'e', 'a', 'd'] = none ∧
      parseLine [' ', ';', 'R'] = some none := by decide
/-- P2's first BYTE line. -/
theorem test_listing : listingLine (.byte 0x31#8) (small [] 0x7C231048#32) none =
    { word := ['2', '0', '0', '0', '0', '0', '0', '3', '1'], text := ['B', 'Y', 'T', 'E', ' ', '0', 'x', '3', '1'],
      built := true, acc := some ['7', 'C', '2', '3', '1', '0', '4', '8'], response := none } := by decide
theorem test_expand : expand (.crc32 [0x61#8, 0x62#8]) = [.seed 0, .byte 0x61#8, .byte 0x62#8, .read] := by decide

/-! Witnesses: for each statement with hypotheses, a state and operands that meet all of them. -/

/-- A built and seeded state whose whole table is in place. -/
def ready : State := { State.resetWith true with acc := 0xFFFFFFFF#32, seeded := true }

theorem ready_holds : ready.built = true ∧ TableHolds ready.table ∧ ready.seeded = true ∧ ready.faultMark = none :=
  ⟨rfl, tableHolds_resetTable, rfl, rfl⟩

theorem ready_inv : StateInv ready := ⟨wf_resetTable true, fun _ => tableHolds_resetTable, fun _ => rfl⟩

/-- DecodeIsTheOpcodeMap, LegalWordsAcceptedInEveryState, DecodeEncodeAgree: a word for each line of the decoder. -/
theorem witness_decode_lines :
    (opField 0x000000000#35 = 0 ∧ argField 0x000000000#35 = 0) ∧ opField 0x1FFFFFFFF#35 = 1 ∧
      (opField 0x2000000FF#35 = 2 ∧ argHigh (argField 0x2000000FF#35) = 0) ∧
      (opField 0x300000000#35 = 3 ∧ argField 0x300000000#35 = 0) ∧
      (opField 0x4000000FF#35 = 4 ∧ argHigh (argField 0x4000000FF#35) = 0) ∧
      decode 0x2000000FF#35 = .ok (.byte 0xFF#8) ∧ (Instr.byte 0xFF#8).wellFormed = true ∧
      (Instr.row (.byte 0)).selects 0x2000000FF#35 = true := by decide

/-- DecodeIsTheOpcodeMap's last line: a word none of the five lines takes. -/
theorem witness_decode_reserved :
    ¬(opField 0x200000100#35 = 0 ∧ argField 0x200000100#35 = 0) ∧ opField 0x200000100#35 ≠ 1 ∧
      ¬(opField 0x200000100#35 = 2 ∧ argHigh (argField 0x200000100#35) = 0) ∧
      ¬(opField 0x200000100#35 = 3 ∧ argField 0x200000100#35 = 0) ∧
      ¬(opField 0x200000100#35 = 4 ∧ argHigh (argField 0x200000100#35) = 0) := by decide

/-- ReservedEncodingsRefused: a word for each alternative. -/
theorem witness_reserved :
    opField 0x500000000#35 = 5 ∧ opField 0x600000000#35 = 6 ∧ opField 0x7FFFFFFFF#35 = 7 ∧
      (opField 0x000000001#35 = 0 ∧ argField 0x000000001#35 ≠ 0) ∧
      (opField 0x380000000#35 = 3 ∧ argField 0x380000000#35 ≠ 0) ∧
      (opField 0x200000100#35 = 2 ∧ argHigh (argField 0x200000100#35) ≠ 0) ∧
      (opField 0x480000000#35 = 4 ∧ argHigh (argField 0x480000000#35) ≠ 0) := by decide

/-- StepRunsDecodedCommand. -/
theorem witness_step_runs :
    (State.reset.present 0x300000000#35).edges = PortEdge.accepting 0x300000000#35 :: [] ∧
      (PortEdge.accepting 0x300000000#35).rst = false ∧ (PortEdge.accepting 0x300000000#35).cmdValid = true ∧
      (PortEdge.accepting 0x300000000#35).cmdReady = true ∧
      decode (PortEdge.accepting 0x300000000#35).word = .ok .read ∧ Instr.read.wellFormed = true := by decide

/-- READ presented while `cmd_ready` is low. -/
def waiting : PortEdge := { PortEdge.accepting 0x300000000#35 with canAccept := false }

/-- An edge at which nothing is presented. -/
def idle : PortEdge := { PortEdge.resetting with rst := false }

/-- OtherEdgesHoldTheState, IdleGapsChangeNothing: a waiting and an idle edge, and an empty port. -/
theorem witness_hold :
    ({ State.reset with edges := [waiting, idle] } : State).edges = waiting :: [idle] ∧ waiting.rst = false ∧
      waiting.cmdReady = false ∧ idle.rst = false ∧ idle.cmdValid = false ∧ State.reset.edges = [] ∧
      (∀ e ∈ [waiting, idle], e.rst = false ∧ (e.cmdValid = false ∨ e.cmdReady = false)) := by decide

/-- HeldCommandIsTheOneAccepted: two edges of waiting, then acceptance. -/
theorem witness_held :
    hostHolds [waiting, waiting, PortEdge.accepting 0x300000000#35] = true ∧ waiting.cmdValid = true ∧
      (∀ f ∈ [waiting, waiting, PortEdge.accepting 0x300000000#35], f.rst = false) ∧
      (∃ f ∈ [waiting, waiting, PortEdge.accepting 0x300000000#35], f.cmdReady = true) := by decide

/-- ResetEdgeLeavesResetState, FaultsInTheirOrder: a reset edge alone and after an accepted INIT; both parameters. -/
theorem witness_reset_edge :
    PortEdge.resetting.rst = true ∧
      ({ State.reset with edges := [PortEdge.resetting] } : State).edges = PortEdge.resetting :: [] ∧
      ({ State.reset with edges := [PortEdge.accepting (encode .init), PortEdge.resetting] } : State).edges =
        PortEdge.accepting (encode .init) :: PortEdge.resetting :: [] ∧
      (State.resetWith true).tableResetBuilt = true ∧ (State.resetWith false).tableResetBuilt = false := by decide

/-- StepKeepsInvariant, OnlyResetUnbuildsOrUnseeds. -/
theorem witness_step_invariant :
    StateInv ready ∧ (∃ t, step ready = .next t) ∧ (∀ e es, ready.edges = e :: es → e.rst = false) ∧
      ready.built = true ∧ ready.seeded = true := by
  refine ⟨ready_inv, ⟨_, rfl⟩, ?_, rfl, rfl⟩
  intro e es h
  cases h

/-- TableWrittenOnlyWhole, FrameOfEveryCommand, DatapathOfAcc: every command answers a next state on `ready`. -/
theorem witness_exec_next (i : Instr) : ∃ t, exec i ready = .next t := exec_next i ready

/-- FrameOfEveryCommand, INIT's clause: an index that is no table index. -/
theorem witness_frame_index : (256 : Nat) ≤ 256 := le_rfl

/-- DatapathOfAcc: bits on both sides of 24, and an edge that holds. -/
theorem witness_datapath :
    (23 < 24 ∧ (24 ≤ 24 ∧ 24 < 32) ∧ (24 ≤ 31 ∧ 31 < 32)) ∧ State.reset.takeEvent.1 = .hold ∧
      isNext (step State.reset) = true := by decide

/-- DivisionStep, BranchlessStepAgrees: both values of bit 0. -/
theorem witness_low_bits : (0x00000001#32).getLsbD 0 = true ∧ (0x00000002#32).getLsbD 0 = false := by decide

/-- EntryProperties, GeneratorFormulaAsPrinted: both ends of `k`, and a word with zeros above bit 7. -/
theorem witness_entry_properties :
    (0 ≤ 7 ∧ 7 ≤ 7) ∧ (0 ≤ 6 ∧ 6 ≤ 6) ∧ (0x000000FF#32).extractLsb' 8 24 = 0#24 ∧
      entry 0xFF#8 = entry 0xFF#8 := by decide

/-- BuildTableStoresEntry: a table in form, and the indexes in another order. -/
theorem witness_build : Table.wf [(0, 0#32), (255, 1#32)] = true ∧ (List.range 256).reverse.Perm (List.range 256) :=
  ⟨by decide, List.reverse_perm _⟩

/-- TableAfterInitIsConstant, RepeatedInitChangesNothing. -/
theorem witness_init_tables :
    (small [(0xCE, 0x7CDCEFB7#32)] 0#32).table.wf = true ∧ State.reset.table.wf = true ∧ StateInv ready ∧
      ready.built = true :=
  ⟨by decide, rfl, ready_inv, rfl⟩

/-- InitBuildsTable, RomrdRespondsTableWord, ByteFoldsIntoAcc, ReadRespondsComplement: arguments with a reserved bit. -/
theorem witness_reserved_arguments :
    (1#32 ≠ 0) ∧ argHigh 0x00000100#32 ≠ 0 ∧ argHigh 0x80000000#32 ≠ 0 := by decide

/-- RomrdRespondsTableWord, ByteFoldsIntoAcc, UpdateCommandsComputeUpdate, UpdateAtThePort, ReadsAreIdempotent,
ByteAgreesWithBitSerialDivision, SaveAndRestore, ChunkingEquivalence. -/
theorem witness_built_and_seeded :
    ready.built = true ∧ TableHolds ready.table ∧ ready.seeded = true ∧ ready.faultMark = none ∧
      runInstrs [] ready = .next ready :=
  ⟨rfl, tableHolds_resetTable, rfl, rfl, rfl⟩

/-- RomrdRespondsTableWord, ByteFoldsIntoAcc, TableUseBeforeInitGoesOn: the table not built. -/
theorem witness_unbuilt : State.reset.built = false ∧ State.reset.faultMark = none := by decide

/-- ByteFoldsIntoAcc, ReadRespondsComplement, UseBeforeSeedFaults, AccUseBeforeSeedGoesOn: built and not seeded. -/
theorem witness_unseeded :
    (State.resetWith true).seeded = false ∧ (State.resetWith true).built = true ∧
      TableHolds (State.resetWith true).table ∧ (State.resetWith true).accValue = none ∧
      (State.resetWith true).faultMark = none ∧ runInstrs [] (State.resetWith true) = .next (State.resetWith true) :=
  ⟨rfl, rfl, tableHolds_resetTable, rfl, rfl, rfl⟩

/-- ByteFoldsIntoAcc: bytes of equal results are equal ones. -/
theorem witness_same_byte : nextAcc (entry (tableIndex 0x31#8 0#32)) 0#32 = nextAcc (entry (tableIndex 0x31#8 0#32)) 0#32 :=
  rfl

/-- ReadRespondsComplement: the worked example's accumulator. -/
theorem witness_read_example : (small [] 0x340BC6D9#32).seeded = true ∧ (small [] 0x340BC6D9#32).acc = 0x340BC6D9#32 := by
  decide

/-- InitBuildsTable, SeedLoadsComplement, FaultsInTheirOrder: nothing recorded, and a word that decodes to `Reserved`. -/
theorem witness_nothing_recorded : State.reset.faultMark = none ∧ decode 0x500000000#35 = .error .opcode := by decide

/-- FaultsInTheirOrder's last clause: a command that reports no fault. -/
theorem witness_no_fault (f : Fault) : checkedExec (.seed 0#32) State.reset ≠ .fault f := by
  intro h
  cases h

/-- RecordedFaultIsSticky: a recorded fault, and no reset to come. -/
theorem witness_marked :
    (State.reset.mark (some .useBeforeInit)).faultMark = some .useBeforeInit ∧
      (∀ e ∈ (State.reset.mark (some .useBeforeInit)).edges, e.rst = false) ∧
      isNext (step (State.reset.mark (some .useBeforeInit))) = true ∧
      runInstrs [] (State.reset.mark (some .useBeforeInit)) = .next (State.reset.mark (some .useBeforeInit)) ∧
      (∀ e es, (State.reset.mark (some .useBeforeInit)).edges = e :: es → e.rst = false) := by
  refine ⟨rfl, ?_, rfl, rfl, ?_⟩
  · intro e h
    cases h
  · intro e es h
    cases h

/-- CorrectWithoutRomIsCorrectWithRom: a program with no fault. -/
theorem witness_no_rom : ∃ t, runChecked [.seed 0x12345678#32, .read] (State.resetWith false) = .next t := ⟨_, rfl⟩

/-- LegalRunsNeverStop: a legal word, a waiting edge and a reset edge. -/
theorem witness_legal_edges : edgesLegal [PortEdge.accepting 0x2000000FF#35, waiting, PortEdge.resetting] = true := by decide

/-- OneChangedByteChangesChecksum: the bytes of V29. -/
theorem witness_changed_byte : (0x31#8 : Byte) ≠ 0x30#8 := by decide

/-- SameAccSameFuture: two histories with the same ACC. -/
theorem witness_same_acc :
    ready.built = true ∧ TableHolds ready.table ∧ (ready.respond 5#32).built = true ∧
      TableHolds (ready.respond 5#32).table ∧ ready.seeded = true ∧ (ready.respond 5#32).seeded = true ∧
      ready.acc = (ready.respond 5#32).acc :=
  ⟨rfl, tableHolds_resetTable, rfl, tableHolds_resetTable, rfl, rfl, rfl⟩

/-- AssemblerLinesEncode: both ends of the printable characters. -/
theorem witness_printable : (0x20 ≤ ' '.toNat ∧ ' '.toNat ≤ 0x7E) ∧ (0x20 ≤ '~'.toNat ∧ '~'.toNat ≤ 0x7E) := by decide

/-- EnginesDoNotInterfere: two engines on a built table, each with a command that runs. -/
theorem witness_engines :
    EnginesBuilt (Engines.reset 2 true) ∧ (1 : Nat) ≠ 0 ∧
      ∃ m, (Engines.reset 2 true).exec 0 (.seed 0#32) = .next m :=
  ⟨⟨rfl, wf_resetTable true, tableHolds_resetTable⟩, by decide, ⟨_, rfl⟩⟩

/-- Two engines, each with one edge at its own port: SEED 0 and a reserved word. -/
def two : Engines :=
  { Engines.reset 2 true with
    lanes := [{ acc := 0, seeded := false, faultMark := none, responses := [], edges := [.accepting 0x100000000#35] },
      { acc := 0, seeded := false, faultMark := none, responses := [], edges := [.accepting 0x500000000#35] }] }

/-- Whether engine `j` is seen unseeded, seeded or not there, or the outcome is the refusal. -/
def laneSeeded (j : Nat) (o : Host.Outcome Engines Fault Refusal) : Option (Option Bool) :=
  match laneSeen j o with
  | .next l => some (l.map Lane.seeded)
  | .fault _ => none
  | .refused _ => none

/-- R90: a port's word is decoded and run at its own engine (R64), the other engine unaffected; a reserved one is refused. -/
theorem test_engine_ports :
    laneSeeded 0 (two.step 0) = some (some true) ∧ laneSeeded 1 (two.step 0) = some (some false) ∧
      laneSeeded 0 (two.step 1) = none ∧ laneSeeded 2 (two.step 2) = some none := by decide

/-- EngineStepIsTheSingleMachines, EnginePortsDoNotInterfere: an accepted legal word at one engine, a refused one at the
other, on a built table. -/
theorem witness_engine_ports :
    EnginesBuilt two ∧ (1 : Nat) ≠ 0 ∧ (∃ m, two.step 0 = .next m) ∧
      (∃ l, two.lanes[0]? = some l ∧ l.edges = PortEdge.accepting 0x100000000#35 :: [] ∧
        ∃ t, step (two.view l) = .next t) ∧
      (∃ l, two.lanes[1]? = some l ∧ step (two.view l) = .refused .reservedEncoding) ∧
      (PortEdge.accepting 0x100000000#35).rst = false ∧ (PortEdge.accepting 0x100000000#35).cmdValid = true ∧
      (PortEdge.accepting 0x100000000#35).cmdReady = true ∧
      decode (PortEdge.accepting 0x100000000#35).word = .ok (.seed 0) ∧
      (∀ l e es, two.lanes[0]? = some l → l.edges = e :: es → e.rst = false) := by
  refine ⟨⟨rfl, wf_resetTable true, tableHolds_resetTable⟩, by decide, ⟨_, rfl⟩, ⟨_, rfl, rfl, ⟨_, rfl⟩⟩, ⟨_, rfl, rfl⟩,
    rfl, rfl, rfl, by decide, ?_⟩
  intro l e es hl he
  cases hl
  cases he
  rfl

end Sys2Proof.Tests
end

/-! PROOFS. The state's statements (10_state.md): what reset leaves, what each command leaves unchanged, the invariant kept
by every step, and the mask ROM of `TABLE_RESET_BUILT` as a refinement. -/

namespace Sys2Proof.Proofs

open Sys2Proof.Machine Sys2Proof.Safety Sys2Proof.Laws

/-! What the state's readings answer, and when a check passes. -/

theorem accValue_unseeded {s : State} (h : s.seeded = false) : s.accValue = none := by
  simp [State.accValue, h]

theorem storedWord_unbuilt {s : State} (h : s.built = false) (i : Byte) : s.storedWord i = none := by
  simp [State.storedWord, h]

@[simp] theorem tableCheck_eq_none {s : State} : s.tableCheck = none ↔ s.built = true := by
  simp [State.tableCheck]

@[simp] theorem accCheck_eq_none {s : State} : s.accCheck = none ↔ s.seeded = true := by
  simp [State.accCheck]

@[simp] theorem byteCheck_eq_none {s : State} : s.byteCheck = none ↔ s.built = true ∧ s.seeded = true := by
  simp [State.byteCheck]

/-- Seedings and registers that agree once seeded are one optional accumulator (R20). -/
theorem accValue_congr {s r : State} (hs : r.seeded = s.seeded) (ha : s.seeded = true → r.acc = s.acc) :
    r.accValue = s.accValue := by
  unfold State.accValue
  rw [hs]
  split
  · next h => rw [ha h]
  · rfl

/-! Reset (R21, R93). -/

/-- The mask ROM of R21 stands in the table after a reset edge. -/
theorem tableHolds_applyReset {s : State} (h : s.tableResetBuilt = true) : TableHolds s.applyReset.table := by
  rw [applyReset_table, h]
  exact tableHolds_resetTable

theorem storedWord_applyReset {s : State} (h : s.tableResetBuilt = false) (i : Byte) :
    s.applyReset.storedWord i = none :=
  storedWord_unbuilt (by rw [applyReset_built, h]) i

theorem stateInv_resetWith (p : Bool) : StateInv (State.resetWith p) := by
  refine ⟨wf_resetTable p, fun hb => ?_, fun hp => hp⟩
  rw [resetWith_built] at hb
  subst hb
  exact tableHolds_resetTable

theorem stateInv_applyReset (s : State) : StateInv s.applyReset :=
  ⟨wf_resetTable _, fun hb => tableHolds_applyReset hb, fun hp => hp⟩

/-! The port: what an edge makes of the step (R39, R93). -/

theorem event_of_rst {e : PortEdge} (h : e.rst = true) : e.event = .reset := by
  simp [PortEdge.event, h]

/-- Only an edge with `rst = 1` resets. -/
theorem rst_of_event_reset {e : PortEdge} (h : e.event = .reset) : e.rst = true := by
  obtain ⟨hr, -⟩ | ⟨-, -, -, he⟩ | ⟨-, -, he⟩ := event_cases e
  · exact hr
  · simp [h] at he
  · simp [h] at he

theorem step_of_rst {s : State} {e : PortEdge} {es : List PortEdge} (hs : s.edges = e :: es) (h : e.rst = true) :
    step s = .next (State.applyReset { s with edges := es }) := by
  simp [step, State.takeEvent, hs, event_of_rst h]

/-- An edge that accepts the word `w` runs it on the state with the edge taken off the port. -/
theorem step_of_accepting {s : State} {w : CmdWord} {es : List PortEdge} (hs : s.edges = PortEdge.accepting w :: es) :
    step s = runWord w { s with edges := es } := by
  have hp : s = State.present { s with edges := es } w := by
    rw [State.present, ← hs]
  conv_lhs => rw [hp]
  unfold step
  rw [takeEvent_present]

/-! Commands: what every one of them leaves alone, and what it may do to the table. -/

theorem exec_keeps_tableResetBuilt {i : Instr} {s t : State} (h : exec i s = .next t) :
    t.tableResetBuilt = s.tableResetBuilt := by
  obtain ⟨-, rfl⟩ | ⟨v, -, rfl⟩ | ⟨b, -, rfl⟩ | ⟨-, rfl⟩ | ⟨x, -, rfl⟩ := exec_cases h <;> simp

theorem exec_keeps_edges {i : Instr} {s t : State} (h : exec i s = .next t) : t.edges = s.edges := by
  obtain ⟨-, rfl⟩ | ⟨v, -, rfl⟩ | ⟨b, -, rfl⟩ | ⟨-, rfl⟩ | ⟨x, -, rfl⟩ := exec_cases h <;> simp

/-- R20: no command makes a seeded `ACC` `none` again. -/
theorem exec_keeps_seeded {i : Instr} {s t : State} (h : exec i s = .next t) (hs : s.seeded = true) :
    t.seeded = true := by
  obtain ⟨-, rfl⟩ | ⟨v, -, rfl⟩ | ⟨b, -, rfl⟩ | ⟨-, rfl⟩ | ⟨x, -, rfl⟩ := exec_cases h <;> simp [hs]

/-- R62: a command builds the whole table (INIT), or leaves the table and `BUILT` as they were. -/
theorem exec_table_cases {i : Instr} {s t : State} (h : exec i s = .next t) :
    (t.built = true ∧ t.table = buildTable s.table) ∨ (t.built = s.built ∧ t.table = s.table) := by
  obtain ⟨-, rfl⟩ | ⟨v, -, rfl⟩ | ⟨b, -, rfl⟩ | ⟨-, rfl⟩ | ⟨x, -, rfl⟩ := exec_cases h
  case inl => exact .inl ⟨rfl, rfl⟩
  all_goals exact .inr (by simp)

theorem exec_keeps_stateInv {i : Instr} {s t : State} (hs : StateInv s) (h : exec i s = .next t) : StateInv t := by
  obtain ⟨hwf, hholds, hrom⟩ := hs
  have hp := exec_keeps_tableResetBuilt h
  obtain ⟨hb, ht⟩ | ⟨hb, ht⟩ := exec_table_cases h
  · refine ⟨?_, fun _ => ?_, fun _ => hb⟩
    · rw [ht]; exact wf_buildTable hwf
    · rw [ht]; exact tableHolds_buildTable _
  · refine ⟨?_, ?_, ?_⟩
    · rw [ht]; exact hwf
    · rw [hb, ht]; exact hholds
    · rw [hp, hb]; exact hrom

/-- A built table is never changed: INIT stores the words it holds (R59), and no other command stores any. -/
theorem exec_keeps_builtTable {i : Instr} {s t : State} (hs : StateInv s) (h : exec i s = .next t)
    (hb : s.built = true) : t.built = true ∧ t.table = s.table := by
  obtain ⟨hwf, hholds, -⟩ := hs
  obtain ⟨hb', ht⟩ | ⟨hb', ht⟩ := exec_table_cases h
  · exact ⟨hb', ht.trans (buildTable_of_tableHolds hwf (hholds hb))⟩
  · exact ⟨hb'.trans hb, ht⟩

/-! Statements about one step. -/

/-- Settles O3: reset establishes the invariant from any state, a held edge does not touch what it speaks of, and every
command keeps it. -/
theorem stepKeepsInvariant : Obligations.StepKeepsInvariant := by
  intro s t hs h
  obtain ⟨-, rfl⟩ | ⟨e, es, -, ⟨-, rfl⟩ | ⟨-, rfl⟩ | ⟨w, i, -, -, hx⟩⟩ := step_cases h
  · exact hs
  · exact stateInv_applyReset _
  · exact hs
  · exact exec_keeps_stateInv (s := { s with edges := es }) hs hx

/-- Settles O4: without a reset edge a step holds the state or runs one command. -/
theorem onlyResetUnbuildsOrUnseeds : Obligations.OnlyResetUnbuildsOrUnseeds := by
  intro s t hs h hno
  obtain ⟨-, rfl⟩ | ⟨e, es, he, ⟨hv, -⟩ | ⟨-, rfl⟩ | ⟨w, i, -, -, hx⟩⟩ := step_cases h
  · exact ⟨fun hb => ⟨hb, rfl⟩, fun hd => hd, rfl⟩
  · have hrst := rst_of_event_reset hv
    rw [hno e es he] at hrst
    cases hrst
  · exact ⟨fun hb => ⟨hb, rfl⟩, fun hd => hd, rfl⟩
  · exact ⟨exec_keeps_builtTable (s := { s with edges := es }) hs hx, (exec_keeps_seeded hx :),
      (exec_keeps_tableResetBuilt hx :)⟩

/-! A ROM built at reset against a table built by INIT (R21, D3): two machines run the same commands, and while the one
without a ROM records no fault they answer alike. -/

/-- The two machines agree on all a correct program can see, ACC's bits only once seeded (R20). -/
structure SameVisible (s r : State) : Prop where
  seeded : r.seeded = s.seeded
  acc : s.seeded = true → r.acc = s.acc
  responses : r.responses = s.responses
  faultMark : r.faultMark = s.faultMark

/-- `r` is a machine with a mask ROM that agrees with `s`, each in a state meeting the invariant. -/
structure RomRefines (s r : State) : Prop where
  inv : StateInv s
  romInv : StateInv r
  rom : r.tableResetBuilt = true
  visible : SameVisible s r

/-- BYTE on a built table folds `entry` (R65). -/
theorem exec_byte_built {s : State} (hb : s.built = true) (ht : TableHolds s.table) (b : Byte) :
    exec (.byte b) s =
      .next ((s.setAcc (nextAcc (entry (tableIndex b s.acc)) s.acc)).mark s.byteCheck) := by
  simp only [exec, execByte, romRead_built hb ht]

/-- ROMRD on a built table responds `entry` (R61). -/
theorem exec_romrd_built {s : State} (hb : s.built = true) (ht : TableHolds s.table) (x : Byte) :
    exec (.romrd x) s = .next ((s.respond (entry x)).mark s.tableCheck) := by
  simp only [exec, execRomrd, romRead_built hb ht]

/-- A mark that is still none after a check records that the check passed. -/
theorem check_of_mark_none {s : State} {f : Option Fault} (h : (s.mark f).faultMark = none) : f = none := by
  rw [mark_faultMark, Option.or_eq_none_iff] at h
  exact h.2

/-- One command that records no fault without the ROM is matched with it. A mark that stays none is what puts BYTE and
ROMRD on a built table, and BYTE and READ on a seeded ACC. -/
theorem exec_keeps_sameVisible {i : Instr} {s r t u : State} (h : RomRefines s r) (ht : exec i s = .next t)
    (hm : t.faultMark = none) (hu : exec i r = .next u) : SameVisible t u := by
  obtain ⟨⟨-, hholds, -⟩, ⟨-, hrholds, hrb⟩, hrom, ⟨hseed, hacc, hresp, hmark⟩⟩ := h
  have hrb := hrb hrom
  have hrholds := hrholds hrb
  cases i with
  | init =>
    cases ht; cases hu
    exact ⟨hseed, hacc, hresp, hmark⟩
  | seed v =>
    cases ht; cases hu
    exact ⟨rfl, fun _ => rfl, hresp, hmark⟩
  | byte b =>
    have hc : s.byteCheck = none := by cases ht; exact check_of_mark_none hm
    obtain ⟨hb, hd⟩ := byteCheck_eq_none.1 hc
    have hrc : r.byteCheck = none := byteCheck_eq_none.2 ⟨hrb, hseed.trans hd⟩
    rw [exec_byte_built hb (hholds hb)] at ht
    rw [exec_byte_built hrb hrholds] at hu
    cases ht; cases hu
    exact ⟨hseed, fun _ => by simp [hacc hd], hresp, by simp [hc, hrc, hmark]⟩
  | read =>
    have hc : s.accCheck = none := by cases ht; exact check_of_mark_none hm
    have hd := accCheck_eq_none.1 hc
    have hrc : r.accCheck = none := accCheck_eq_none.2 (hseed.trans hd)
    cases ht; cases hu
    exact ⟨hseed, hacc, by simp [hresp, hacc hd], by simp [hc, hrc, hmark]⟩
  | romrd x =>
    have hc : s.tableCheck = none := by cases ht; exact check_of_mark_none hm
    have hb := tableCheck_eq_none.1 hc
    have hrc : r.tableCheck = none := tableCheck_eq_none.2 hrb
    rw [exec_romrd_built hb (hholds hb)] at ht
    rw [exec_romrd_built hrb hrholds] at hu
    cases ht; cases hu
    exact ⟨hseed, hacc, by simp [hresp], by simp [hc, hrc, hmark]⟩

/-- The commuting square of one command. -/
theorem exec_keeps_romRefines {i : Instr} {s r t : State} (h : RomRefines s r) (ht : exec i s = .next t)
    (hm : t.faultMark = none) : ∃ u, exec i r = .next u ∧ u.faultMark = none ∧ RomRefines t u := by
  obtain ⟨u, hu⟩ := exec_next i r
  have hv := exec_keeps_sameVisible h ht hm hu
  exact ⟨u, hu, hv.faultMark.trans hm, exec_keeps_stateInv h.inv ht, exec_keeps_stateInv h.romInv hu,
    (exec_keeps_tableResetBuilt hu).trans h.rom, hv⟩

/-- A stopping run that completes ran its first command without a fault. -/
theorem runChecked_cons_cases {i : Instr} {is : List Instr} {s t : State} (h : runChecked (i :: is) s = .next t) :
    ∃ u, exec i s = .next u ∧ u.faultMark = none ∧ runChecked is u = .next t := by
  obtain ⟨u, hu⟩ := exec_next i s
  cases hm : u.faultMark with
  | none => exact ⟨u, hu, hm, runChecked_cons_of_next is hu hm ▸ h⟩
  | some f => simp [runChecked, checkedExec, hu, stopAtMark, hm] at h

/-- A completed run without the ROM is matched with it, command by command. -/
theorem runChecked_romRefines {is : List Instr} {s r t : State} (h : RomRefines s r)
    (ht : runChecked is s = .next t) : ∃ u, runChecked is r = .next u ∧ RomRefines t u := by
  induction is generalizing s r with
  | nil =>
    cases ht
    exact ⟨r, rfl, h⟩
  | cons i is ih =>
    obtain ⟨s', hs', hm, ht'⟩ := runChecked_cons_cases ht
    obtain ⟨r', hr', hrm, h'⟩ := exec_keeps_romRefines h hs' hm
    rw [runChecked_cons_of_next is hr' hrm]
    exact ih h' ht'

theorem romRefines_resetWith : RomRefines (State.resetWith false) (State.resetWith true) :=
  ⟨stateInv_resetWith false, stateInv_resetWith true, rfl, rfl, fun _ => rfl, rfl, rfl⟩

/-- Settles O39, by simulation from the two reset states. -/
theorem correctWithoutRomIsCorrectWithRom : Obligations.CorrectWithoutRomIsCorrectWithRom := by
  intro is t ht
  obtain ⟨u, hu, hr⟩ := runChecked_romRefines romRefines_resetWith ht
  exact ⟨u, hu, hr.visible.responses, accValue_congr hr.visible.seeded hr.visible.acc⟩

/-! Statements about reset and about single commands. -/

/-- Settles O1. -/
theorem resetState : Obligations.ResetState := by
  intro p
  refine ⟨rfl, rfl, accValue_unseeded rfl, rfl, rfl, ?_, fun hp i => storedWord_unbuilt hp i, rfl⟩
  rintro rfl
  exact tableHolds_resetTable

/-- Settles O2. -/
theorem resetMeetsInvariant : Obligations.ResetMeetsInvariant := stateInv_resetWith

/-- Settles O15: the reset edge overrides whatever is presented, and the INIT accepted before it. -/
theorem resetEdgeLeavesResetState : Obligations.ResetEdgeLeavesResetState := by
  intro s e es hr
  constructor
  · intro hs
    exact ⟨_, step_of_rst hs hr, rfl, accValue_unseeded rfl, fun hp => tableHolds_applyReset hp,
      fun hp => storedWord_applyReset hp, rfl, rfl, rfl, rfl, cmdReady_of_rst hr⟩
  · intro hs
    have hdec : decode (encode .init) = .ok .init := by decide
    have hinit : step s = .next (State.setBuiltTable { s with edges := e :: es } (buildTable s.table)) := by
      rw [step_of_accepting hs, runWord, hdec]
      rfl
    have hreset := step_of_rst (s := State.setBuiltTable { s with edges := e :: es } (buildTable s.table)) rfl hr
    exact ⟨_, (run_succ_of_next 1 hinit).trans (run_succ_of_next 0 hreset), rfl, fun hp => storedWord_applyReset hp⟩

/-- Settles O30, command by command. -/
theorem frameOfEveryCommand : Obligations.FrameOfEveryCommand := by
  intro i s t h
  refine ⟨exec_keeps_tableResetBuilt h, exec_keeps_edges h, ?_⟩
  cases i with
  | init =>
    cases h
    exact ⟨rfl, rfl, rfl, rfl, rfl, fun n hn => buildTable_read_other s.table hn⟩
  | seed v =>
    cases h
    exact ⟨rfl, rfl, rfl, rfl, fun _ => rfl⟩
  | byte b =>
    cases h
    refine ⟨by simp, by simp, by simp, fun hb hd => ?_, fun n => by simp⟩
    simp [byteCheck_eq_none.2 ⟨hb, hd⟩]
  | read =>
    cases h
    refine ⟨rfl, rfl, rfl, rfl, fun hd => ?_, fun _ => rfl⟩
    simp [accCheck_eq_none.2 hd]
  | romrd x =>
    cases h
    refine ⟨by simp, by simp, by simp, fun hb => ?_, fun n => by simp⟩
    simp [tableCheck_eq_none.2 hb]

end Sys2Proof.Proofs

/-! PROOFS. The memory's statements (20_memory.md): reads change nothing, a built table and a seeded accumulator never fault,
and several engines on one built table do not interfere. -/

namespace Sys2Proof.Proofs

open Sys2Proof.Machine Sys2Proof.Safety Sys2Proof.Laws

/-! Reads of a seeded accumulator and of a built table (R30). -/

@[simp] theorem mark_none (s : State) : s.mark none = s := by
  simp [State.mark]

/-- R68, R74: the output XOR with all ones is the complement. -/
theorem complementOut_eq_not (v : Word) : complementOut v = ~~~v := BitVec.xor_allOnes

/-- READ of a seeded accumulator only responds (R68). -/
theorem exec_read_seeded {s : State} (hd : s.seeded = true) : exec .read s = .next (s.respond (~~~s.acc)) := by
  simp only [exec, execRead, accCheck_eq_none.2 hd, mark_none, complementOut_eq_not]

/-- ROMRD of a built table only responds (R61). -/
theorem exec_romrd_built_responds {s : State} (hb : s.built = true) (ht : TableHolds s.table) (x : Byte) :
    exec (.romrd x) s = .next (s.respond (entry x)) := by
  rw [exec_romrd_built hb ht, tableCheck_eq_none.2 hb, mark_none]

/-- A command that only responds `w`, whatever was responded before, responds `n` copies of it when repeated. -/
theorem runInstrs_replicate_of_responds {i : Instr} {s : State} {w : Word}
    (h : ∀ rs, exec i { s with responses := rs } = .next { s with responses := rs ++ [w] }) (n : Nat) (rs : List Word) :
    runInstrs (List.replicate n i) { s with responses := rs } =
      .next { s with responses := rs ++ List.replicate n w } := by
  induction n generalizing rs with
  | zero => simp [runInstrs]
  | succ n ih =>
    rw [List.replicate_succ, runInstrs_cons_of_next _ (h rs), ih, List.replicate_succ, List.append_assoc,
      List.singleton_append]

/-- Settles O32: READ and ROMRD only respond, and the word depends on nothing they write. -/
theorem readsAreIdempotent : Obligations.ReadsAreIdempotent := by
  constructor
  · intro s n hd
    exact runInstrs_replicate_of_responds (fun rs => exec_read_seeded (s := { s with responses := rs }) hd) n s.responses
  · intro s i n hb ht
    exact runInstrs_replicate_of_responds
      (fun rs => exec_romrd_built_responds (s := { s with responses := rs }) hb ht i) n s.responses

/-! After INIT and SEED every check passes, for good (R33, R95). -/

/-- With the table built and `ACC` seeded no command records a fault. -/
theorem exec_keeps_faultMark {i : Instr} {s t : State} (h : exec i s = .next t) (hb : s.built = true)
    (hd : s.seeded = true) : t.faultMark = s.faultMark := by
  have hbyte := byteCheck_eq_none.2 ⟨hb, hd⟩
  have hacc := accCheck_eq_none.2 hd
  have htab := tableCheck_eq_none.2 hb
  obtain ⟨-, rfl⟩ | ⟨v, -, rfl⟩ | ⟨b, -, rfl⟩ | ⟨-, rfl⟩ | ⟨x, -, rfl⟩ := exec_cases h <;> simp [hbyte, hacc, htab]

/-- No command clears `BUILT`. -/
theorem exec_keeps_built {i : Instr} {s t : State} (h : exec i s = .next t) (hb : s.built = true) : t.built = true := by
  obtain ⟨ht, -⟩ | ⟨ht, -⟩ := exec_table_cases h
  · exact ht
  · exact ht.trans hb

/-- The state R95's preamble establishes: the table built, `ACC` seeded, nothing recorded. -/
structure Prepared (s : State) : Prop where
  built : s.built = true
  seeded : s.seeded = true
  faultMark : s.faultMark = none

theorem exec_keeps_prepared {i : Instr} {s t : State} (hs : Prepared s) (h : exec i s = .next t) : Prepared t :=
  ⟨exec_keeps_built h hs.built, exec_keeps_seeded h hs.seeded,
    (exec_keeps_faultMark h hs.built hs.seeded).trans hs.faultMark⟩

/-- From a prepared state every command list completes under the stopping outcome. -/
theorem runChecked_of_prepared (is : List Instr) {s : State} (hs : Prepared s) :
    ∃ t, runChecked is s = .next t ∧ t.faultMark = none := by
  induction is generalizing s with
  | nil => exact ⟨s, rfl, hs.faultMark⟩
  | cons i is ih =>
    obtain ⟨u, hu⟩ := exec_next i s
    have hprep := exec_keeps_prepared hs hu
    rw [runChecked_cons_of_next is hu hprep.faultMark]
    exact ih hprep

/-- Settles O38: either order of the preamble reaches a prepared state without a fault. -/
theorem preambleNeverFaults : Obligations.PreambleNeverFaults := by
  intro p v is
  constructor
  · rw [runChecked_cons_of_next (i := .init) _ rfl rfl, runChecked_cons_of_next (i := .seed v) _ rfl rfl]
    exact runChecked_of_prepared is ⟨rfl, rfl, rfl⟩
  · rw [runChecked_cons_of_next (i := .seed v) _ rfl rfl, runChecked_cons_of_next (i := .init) _ rfl rfl]
    exact runChecked_of_prepared is ⟨rfl, rfl, rfl⟩

/-! Several engines (R35, R90). With the table built, a command or an edge that is no reset keeps all that the engines share,
so every other engine sees the machine it saw before. -/

/-- `t` has of the shared state what `s` has: the fields of `Engines` other than its lanes. -/
structure SameShared (s t : State) : Prop where
  built : t.built = s.built
  table : t.table = s.table
  tableResetBuilt : t.tableResetBuilt = s.tableResetBuilt
  draws : t.draws = s.draws

/-- On a built table no command draws a free word. -/
theorem exec_keeps_draws {i : Instr} {s t : State} (hb : s.built = true) (ht : TableHolds s.table)
    (h : exec i s = .next t) : t.draws = s.draws := by
  obtain ⟨-, rfl⟩ | ⟨v, -, rfl⟩ | ⟨b, -, rfl⟩ | ⟨-, rfl⟩ | ⟨x, -, rfl⟩ := exec_cases h <;> simp [romRead_built hb ht]

theorem exec_keeps_sameShared {i : Instr} {s t : State} (hs : StateInv s) (hb : s.built = true)
    (h : exec i s = .next t) : SameShared s t := by
  obtain ⟨hb', ht⟩ := exec_keeps_builtTable hs h hb
  obtain ⟨-, hholds, -⟩ := hs
  exact ⟨hb'.trans hb.symm, ht, exec_keeps_tableResetBuilt h, exec_keeps_draws hb (hholds hb) h⟩

theorem step_keeps_sameShared {s t : State} (hs : StateInv s) (hb : s.built = true) (h : step s = .next t)
    (hno : ∀ e es, s.edges = e :: es → e.rst = false) : SameShared s t := by
  obtain ⟨-, rfl⟩ | ⟨e, es, he, ⟨hv, -⟩ | ⟨-, rfl⟩ | ⟨w, i, -, -, hx⟩⟩ := step_cases h
  · exact ⟨rfl, rfl, rfl, rfl⟩
  · have hrst := rst_of_event_reset hv
    rw [hno e es he] at hrst
    cases hrst
  · exact ⟨rfl, rfl, rfl, rfl⟩
  · obtain ⟨h1, h2, h3, h4⟩ := exec_keeps_sameShared (s := { s with edges := es }) hs hb hx
    exact ⟨h1, h2, h3, h4⟩

/-- On a built table every engine's view meets the single machine's invariant. -/
theorem stateInv_view {m : Engines} (hm : EnginesBuilt m) (l : Lane) : StateInv (m.view l) := by
  obtain ⟨hb, hwf, hholds⟩ := hm
  exact ⟨hwf, fun _ => hholds, fun _ => hb⟩

/-- Storing a state with the same shared part stores a lane alone. -/
theorem put_of_sameShared {m : Engines} {k : Nat} {l : Lane} {t : State} (h : SameShared (m.view l) t) :
    m.put k t = { m with lanes := m.lanes.set k (laneOf t) } := by
  obtain ⟨hb, ht, hp, hd⟩ := h
  simp only [Engines.put, hb, ht, hp, hd, Engines.view]

/-- What happens at one engine leaves the other engines' lanes. -/
theorem atEngine_keeps_other_lanes {m m' : Engines} {k : Nat} {f : State → Host.Outcome State Fault Refusal}
    (h : m.atEngine k f = .next m') :
    m'.lanes.length = m.lanes.length ∧ ∀ j, j ≠ k → m'.lanes[j]? = m.lanes[j]? := by
  obtain ⟨-, rfl⟩ | ⟨l, t, -, -, rfl⟩ := atEngine_cases h
  · exact ⟨rfl, fun _ _ => rfl⟩
  · exact ⟨by simp, fun j hj => put_lane_other m t hj⟩

/-- What keeps the shared state at an engine changes the product in its lanes alone. -/
theorem atEngine_changes_lanes_only {m m' : Engines} {k : Nat} {f : State → Host.Outcome State Fault Refusal}
    (hf : ∀ l t, m.lanes[k]? = some l → f (m.view l) = .next t → SameShared (m.view l) t)
    (h : m.atEngine k f = .next m') : m' = { m with lanes := m'.lanes } := by
  obtain ⟨-, rfl⟩ | ⟨l, t, hl, ht, rfl⟩ := atEngine_cases h
  · rfl
  · exact put_of_sameShared (hf l t hl ht)

/-- What an engine shows depends on its own lane and the shared state, not on the other lanes. -/
theorem laneSeen_atEngine_congr {m : Engines} {lanes : List Lane} {j : Nat}
    (f : State → Host.Outcome State Fault Refusal) (h : lanes[j]? = m.lanes[j]?) :
    laneSeen j (Engines.atEngine { m with lanes := lanes } j f) = laneSeen j (m.atEngine j f) := by
  cases hl : m.lanes[j]? with
  | none =>
    rw [atEngine_none hl, atEngine_none (h.trans hl)]
    exact congrArg Host.Outcome.next h
  | some l =>
    have hl' : ({ m with lanes := lanes } : Engines).lanes[j]? = some l := h.trans hl
    cases hf : f (m.view l) with
    | next t =>
      rw [atEngine_next hl hf, atEngine_next hl' hf]
      exact congrArg Host.Outcome.next ((put_lane_same t hl').trans (put_lane_same t hl).symm)
    | fault r =>
      have hf' : f (Engines.view { m with lanes := lanes } l) = .fault r := hf
      simp only [Engines.atEngine, hl, hl', hf, hf', laneSeen]
    | refused r => rw [atEngine_refused hl hf, atEngine_refused hl' hf]

/-- What keeps the shared state at engine `k` is not seen at another engine `j`. -/
theorem laneSeen_atEngine_after_other {m m' : Engines} {j k : Nat} {f : State → Host.Outcome State Fault Refusal}
    (g : State → Host.Outcome State Fault Refusal) (hjk : j ≠ k)
    (hf : ∀ l t, m.lanes[k]? = some l → f (m.view l) = .next t → SameShared (m.view l) t)
    (h : m.atEngine k f = .next m') : laneSeen j (m'.atEngine j g) = laneSeen j (m.atEngine j g) := by
  rw [atEngine_changes_lanes_only hf h]
  exact laneSeen_atEngine_congr g ((atEngine_keeps_other_lanes h).2 j hjk)

/-- The shared table stays built, in form and the same. -/
theorem enginesBuilt_of_lanes_only {m m' : Engines} (hm : EnginesBuilt m) (h : m' = { m with lanes := m'.lanes }) :
    EnginesBuilt m' ∧ m'.table = m.table := by
  rw [h]
  exact ⟨hm, rfl⟩

/-- A command at any engine answers a next state of the product. -/
theorem engines_exec_next (m : Engines) (k : Nat) (i : Instr) : ∃ m', m.exec k i = .next m' := by
  cases hl : m.lanes[k]? with
  | none => exact ⟨m, atEngine_none hl⟩
  | some l =>
    obtain ⟨t, ht⟩ := exec_next i (m.view l)
    exact ⟨m.put k t, atEngine_next hl ht⟩

/-- Settles O51: a command on a built table keeps what the engines share. -/
theorem enginesDoNotInterfere : Obligations.EnginesDoNotInterfere := by
  refine ⟨fun m m' k i h => atEngine_keeps_other_lanes h, fun m j k i i' hm hjk => ?_⟩
  have hb : m.built = true := hm.1
  obtain ⟨m1, h1⟩ := engines_exec_next m k i
  obtain ⟨m2, h2⟩ := engines_exec_next m1 j i'
  obtain ⟨m3, h3⟩ := engines_exec_next m j i'
  have hkeep : ∀ l t, m.lanes[k]? = some l → exec i (m.view l) = .next t → SameShared (m.view l) t :=
    fun l _ _ ht => exec_keeps_sameShared (stateInv_view hm l) hb ht
  obtain ⟨hm1, htable⟩ := enginesBuilt_of_lanes_only hm (atEngine_changes_lanes_only hkeep h1)
  have hseen : laneSeen j (m1.exec j i') = laneSeen j (m.exec j i') := laneSeen_atEngine_after_other _ hjk hkeep h1
  rw [h2, h3] at hseen
  exact ⟨m1, m2, m3, h1, hm1, htable, h2, h3, Host.Outcome.next.inj hseen⟩

/-- Settles O53: an edge that is no reset keeps, on a built table, what the engines share. -/
theorem enginePortsDoNotInterfere : Obligations.EnginePortsDoNotInterfere := by
  refine ⟨fun m m' k h => atEngine_keeps_other_lanes h, fun m m1 j k hm hjk h hno => ?_⟩
  have hb : m.built = true := hm.1
  have hkeep : ∀ l t, m.lanes[k]? = some l → step (m.view l) = .next t → SameShared (m.view l) t :=
    fun l _ hl ht => step_keeps_sameShared (stateInv_view hm l) hb ht (fun e es => hno l e es hl)
  obtain ⟨hm1, htable⟩ := enginesBuilt_of_lanes_only hm (atEngine_changes_lanes_only hkeep h)
  exact ⟨hm1, htable, laneSeen_atEngine_after_other _ hjk hkeep h⟩

end Sys2Proof.Proofs

/-! PROOFS. The encoding's statements (30_encoding.md): decoder and encoder, the opcode map, the command port edge by edge,
the assembler's lines, and the port of one engine of several. -/

namespace Sys2Proof.Proofs

open Sys2Proof.Machine Sys2Proof.Safety Sys2Proof.Laws

/-! The fields of a command word and of its argument (R41, R43). -/

theorem commandWord_fields (w : CmdWord) : commandWord (opField w) (argField w) = w :=
  (BitVec.extractLsb'_append_extractLsb'_eq_extractLsb' rfl).trans BitVec.extractLsb'_eq_self

theorem argHigh_append_argByte (a : Word) : argHigh a ++ argByte a = a :=
  (BitVec.extractLsb'_append_extractLsb'_eq_extractLsb' rfl).trans BitVec.extractLsb'_eq_self

theorem setWidth_eq_zero_append (b : Byte) : b.setWidth 32 = 0#24 ++ b :=
  BitVec.setWidth_eq_append (by decide)

@[simp] theorem argByte_setWidth (b : Byte) : argByte (b.setWidth 32) = b := by
  rw [setWidth_eq_zero_append, argByte, BitVec.extractLsb'_append_eq_right]

@[simp] theorem argHigh_setWidth (b : Byte) : argHigh (b.setWidth 32) = 0 := by
  rw [setWidth_eq_zero_append, argHigh, BitVec.extractLsb'_append_eq_left]
  rfl

/-- R43, R47: an argument with no bit set above the byte is the byte, zero-extended. -/
theorem setWidth_argByte {a : Word} (h : argHigh a = 0) : (argByte a).setWidth 32 = a := by
  rw [setWidth_eq_zero_append, ← BitVec.ofNat_eq_ofNat, ← h, argHigh_append_argByte]

/-! Decoder and encoder (R42, R44): both are about the opcode and the argument of a command. -/

/-- The argument field of a command (R42, R43), beside `opcodeOf`. -/
def argumentOf : Instr → Word
  | .init => 0
  | .seed s => s
  | .byte b => b.setWidth 32
  | .read => 0
  | .romrd i => i.setWidth 32

theorem encode_eq_commandWord (i : Instr) : encode i = commandWord (opcodeOf i) (argumentOf i) := by
  cases i <;> rfl

theorem decode_encode (i : Instr) : decode (encode i) = .ok i := by
  cases i <;> simp [decode, encode, commandWord_opField, commandWord_argField]

/-- What a word that decodes to a command holds. -/
theorem fields_of_decode {w : CmdWord} {i : Instr} (h : decode w = .ok i) :
    opField w = opcodeOf i ∧ argField w = argumentOf i := by
  unfold decode at h
  split_ifs at h with h0 ha h1 h2 hb h3 hc h4 hd <;> cases h
  · exact ⟨h0, ha⟩
  · exact ⟨h1, rfl⟩
  · exact ⟨h2, (setWidth_argByte hb).symm⟩
  · exact ⟨h3, hc⟩
  · exact ⟨h4, (setWidth_argByte hd).symm⟩

theorem encode_of_decode {w : CmdWord} {i : Instr} (h : decode w = .ok i) : encode i = w := by
  obtain ⟨hop, harg⟩ := fields_of_decode h
  rw [encode_eq_commandWord, ← hop, ← harg, commandWord_fields]

theorem decode_eq_ok_iff {w : CmdWord} {i : Instr} : decode w = .ok i ↔ encode i = w :=
  ⟨encode_of_decode, fun h => h ▸ decode_encode i⟩

theorem encode_injective : Function.Injective encode := by
  intro i j h
  have hij : decode (encode j) = .ok i := decode_eq_ok_iff.2 h
  exact Except.ok.inj (hij.symm.trans (decode_encode j))

/-- Every command is well formed, and its word bears its opcode and selects its row. -/
theorem encoded (i : Instr) : Encoded.Statement i := by
  cases i with
  | init => exact Encoded.init
  | seed v => exact Encoded.seed v
  | byte b => exact Encoded.byte b
  | read => exact Encoded.read
  | romrd x => exact Encoded.romrd x

/-- Settles O7: decoding reads back the two fields the encoder wrote, and every word is its two fields. -/
theorem decodeEncodeAgree : Obligations.DecodeEncodeAgree :=
  ⟨fun i _ => decode_encode i, fun _ i h => ⟨(encoded i).1, encode_of_decode h⟩⟩

/-! The opcode map's lines and its match/mask form (R44). -/

theorem decode_init {w : CmdWord} (h : opField w = 0) (ha : argField w = 0) : decode w = .ok .init := by
  simp [decode, h, ha]

theorem decode_seed {w : CmdWord} (h : opField w = 1) : decode w = .ok (.seed (argField w)) := by
  simp [decode, h]

theorem decode_byte {w : CmdWord} (h : opField w = 2) (ha : argHigh (argField w) = 0) :
    decode w = .ok (.byte (argByte (argField w))) := by
  simp [decode, h, ha]

theorem decode_read {w : CmdWord} (h : opField w = 3) (ha : argField w = 0) : decode w = .ok .read := by
  simp [decode, h, ha]

theorem decode_romrd {w : CmdWord} (h : opField w = 4) (ha : argHigh (argField w) = 0) :
    decode w = .ok (.romrd (argByte (argField w))) := by
  simp [decode, h, ha]

/-- A word on none of the five lines is reserved. -/
theorem decode_other {w : CmdWord} (hinit : ¬(opField w = 0 ∧ argField w = 0)) (hseed : opField w ≠ 1)
    (hbyte : ¬(opField w = 2 ∧ argHigh (argField w) = 0)) (hread : ¬(opField w = 3 ∧ argField w = 0))
    (hromrd : ¬(opField w = 4 ∧ argHigh (argField w) = 0)) : ∃ r, decode w = .error r := by
  unfold decode
  split_ifs with h0 ha h2 hb h3 hc h4 hd
  · exact absurd ⟨h0, ha⟩ hinit
  · exact ⟨_, rfl⟩
  · exact absurd ⟨h2, hb⟩ hbyte
  · exact ⟨_, rfl⟩
  · exact absurd ⟨h3, hc⟩ hread
  · exact ⟨_, rfl⟩
  · exact absurd ⟨h4, hd⟩ hromrd
  · exact ⟨_, rfl⟩
  · exact ⟨_, rfl⟩

/-- The argument bits a command's row requires to be zero (R44). -/
def zeroMaskOf : Instr → Word
  | .init => BitVec.allOnes 32
  | .seed _ => 0
  | .byte _ => 0xFFFFFF00#32
  | .read => BitVec.allOnes 32
  | .romrd _ => 0xFFFFFF00#32

theorem row_mask (i : Instr) : i.row.mask = commandWord (BitVec.allOnes 3) (zeroMaskOf i) := by
  cases i with
  | init => decide
  | seed v => change 0x700000000#35 = commandWord (BitVec.allOnes 3) 0; decide
  | byte b => change 0x7FFFFFF00#35 = commandWord (BitVec.allOnes 3) 0xFFFFFF00#32; decide
  | read => decide
  | romrd x => change 0x7FFFFFF00#35 = commandWord (BitVec.allOnes 3) 0xFFFFFF00#32; decide

theorem row_pattern (i : Instr) : i.row.pattern = commandWord (opcodeOf i) 0 := by
  cases i with
  | init => decide
  | seed v => change 0x100000000#35 = commandWord 1 0; decide
  | byte b => change 0x200000000#35 = commandWord 2 0; decide
  | read => decide
  | romrd x => change 0x400000000#35 = commandWord 4 0; decide

theorem commandWord_inj {op op' : Op} {arg arg' : Word} :
    commandWord op arg = commandWord op' arg' ↔ op = op' ∧ arg = arg' := by
  refine ⟨fun h => ⟨?_, ?_⟩, fun ⟨h, h'⟩ => h ▸ h' ▸ rfl⟩
  · simpa [commandWord_opField] using congrArg opField h
  · simpa [commandWord_argField] using congrArg argField h

/-- A word selects a command's row by its opcode and the argument bits that must be zero. -/
theorem selects_row_iff {i : Instr} {w : CmdWord} :
    i.row.selects w = true ↔ opField w = opcodeOf i ∧ argField w &&& zeroMaskOf i = 0 := by
  have hand : w &&& i.row.mask = commandWord (opField w) (argField w &&& zeroMaskOf i) := by
    conv_lhs => rw [row_mask, ← commandWord_fields w, commandWord, commandWord, BitVec.and_append, BitVec.and_allOnes]
    rfl
  rw [EncodingRow.selects, decide_eq_true_iff, hand, row_pattern, commandWord_inj]

/-- R44's mask of BYTE and ROMRD tests the argument's reserved bits. -/
theorem and_highMask_eq_zero {a : Word} : a &&& 0xFFFFFF00#32 = 0 ↔ argHigh a = 0 := by
  have hand : a &&& 0xFFFFFF00#32 = argHigh a ++ 0#8 := by
    conv_lhs => rw [← argHigh_append_argByte a, show 0xFFFFFF00#32 = BitVec.allOnes 24 ++ 0#8 by decide,
      BitVec.and_append, BitVec.and_allOnes, BitVec.and_zero]
  rw [hand, show (0 : Word) = 0#24 ++ 0#8 by decide, BitVec.append_left_inj]
  rfl

/-- A word decodes to a command of a row exactly when it selects the row. -/
theorem selects_row_iff_decode {i : Instr} {w : CmdWord} :
    i.row.selects w = true ↔ ∃ j, decode w = .ok j ∧ j.row = i.row := by
  constructor
  · intro h
    obtain ⟨hop, harg⟩ := selects_row_iff.1 h
    cases i with
    | init => exact ⟨_, decode_init hop (BitVec.and_allOnes.symm.trans harg), rfl⟩
    | seed v => exact ⟨_, decode_seed hop, rfl⟩
    | byte b => exact ⟨_, decode_byte hop (and_highMask_eq_zero.1 harg), rfl⟩
    | read => exact ⟨_, decode_read hop (BitVec.and_allOnes.symm.trans harg), rfl⟩
    | romrd x => exact ⟨_, decode_romrd hop (and_highMask_eq_zero.1 harg), rfl⟩
  · rintro ⟨j, hj, hrow⟩
    obtain ⟨-, -, hsel⟩ := encoded j
    rwa [encode_of_decode hj, hrow] at hsel

theorem exists_row_of_mem {r : EncodingRow} (h : r ∈ encodingTable) : ∃ i : Instr, i.row = r := by
  simp only [encodingTable, List.mem_cons, List.not_mem_nil, or_false] at h
  obtain h | h | h | h | h := h <;> exact ⟨_, h.symm⟩

theorem decode_of_selects {r : EncodingRow} {w : CmdWord} (hr : r ∈ encodingTable) (h : r.selects w = true) :
    ∃ i, decode w = .ok i ∧ i.row = r := by
  obtain ⟨i, rfl⟩ := exists_row_of_mem hr
  exact selects_row_iff_decode.1 h

/-- No word selects two rows: it would decode to two commands. -/
theorem row_eq_of_selects {r r' : EncodingRow} {w : CmdWord} (hr : r ∈ encodingTable) (hr' : r' ∈ encodingTable)
    (h : r.selects w = true) (h' : r'.selects w = true) : r = r' := by
  obtain ⟨i, hi, rfl⟩ := decode_of_selects hr h
  obtain ⟨j, hj, rfl⟩ := decode_of_selects hr' h'
  rw [Except.ok.inj (hi.symm.trans hj)]

theorem encodingTable_disjoint :
    encodingTable.Pairwise (fun r r' => ∀ w, ¬(r.selects w = true ∧ r'.selects w = true)) := by
  have hne : encodingTable.Pairwise (· ≠ ·) := by decide
  exact hne.imp_of_mem fun hr hr' h w ⟨hs, hs'⟩ => h (row_eq_of_selects hr hr' hs hs')

/-! How many words decode to a command (R44): as many as it has operands, `encode` being injective. -/

theorem card_decode_eq (i : Instr) : Nat.card {w : CmdWord // decode w = .ok i} = 1 := by
  simp only [decode_eq_ok_iff]
  exact Nat.card_unique

theorem card_decode_family {n : Nat} {f : BitVec n → Instr} (hf : Function.Injective f) :
    Nat.card {w : CmdWord // ∃ a, decode w = .ok (f a)} = 2 ^ n := by
  have hcard : Nat.card (BitVec n) = 2 ^ n := Nat.card_eq_of_equiv_fin FinEnum.equiv
  simp only [decode_eq_ok_iff]
  rw [← hcard]
  exact (Nat.card_congr (Equiv.ofInjective _ (encode_injective.comp hf))).symm

/-- Settles O6: the decoder's lines one by one; the match/mask form and the counts by the round trip of O7. -/
theorem decodeIsTheOpcodeMap : Obligations.DecodeIsTheOpcodeMap :=
  ⟨fun _ => ⟨decode_init, decode_seed, decode_byte, decode_read, decode_romrd, decode_other⟩,
    rfl,
    fun _ i h => selects_row_iff_decode.2 ⟨i, h, rfl⟩,
    fun _ _ hr h => decode_of_selects hr h,
    encodingTable_disjoint,
    card_decode_eq .init,
    card_decode_family fun _ _ => Instr.seed.inj,
    card_decode_family fun _ _ => Instr.byte.inj,
    card_decode_eq .read,
    card_decode_family fun _ _ => Instr.romrd.inj⟩

/-- Settles O8, by evaluating the decoder on each word. -/
theorem decodeOfChosenWords : Obligations.DecodeOfChosenWords := by
  unfold Obligations.DecodeOfChosenWords
  decide

/-! The command port edge by edge (R39, R45). -/

theorem event_of_accepted {e : PortEdge} (hr : e.rst = false) (hv : e.cmdValid = true) (hc : e.cmdReady = true) :
    e.event = .command e.word := by
  simp [PortEdge.event, hr, hv, hc]

theorem event_of_idle {e : PortEdge} (hr : e.rst = false) (h : e.cmdValid = false ∨ e.cmdReady = false) :
    e.event = .hold := by
  obtain hv | hc := h
  · simp [PortEdge.event, hr, hv]
  · simp [PortEdge.event, hr, hc]

theorem runWord_of_decode {w : CmdWord} {i : Instr} (s : State) (h : decode w = .ok i) : runWord w s = exec i s := by
  simp only [runWord, h]

theorem step_of_command {s : State} {e : PortEdge} {es : List PortEdge} {w : CmdWord} {i : Instr}
    (hs : s.edges = e :: es) (he : e.event = .command w) (hd : decode w = .ok i) :
    step s = exec i { s with edges := es } := by
  simp only [step, State.takeEvent, hs, he, runWord_of_decode _ hd]

theorem step_of_hold {s : State} {e : PortEdge} {es : List PortEdge} (hs : s.edges = e :: es)
    (he : e.event = .hold) : step s = .next { s with edges := es } := by
  simp only [step, State.takeEvent, hs, he]

theorem step_of_no_edges {s : State} (hs : s.edges = []) : step s = .next s := by
  simp only [step, State.takeEvent, hs]

/-- Settles O10: the step runs the decoded command, and no command stops. -/
theorem legalWordsAcceptedInEveryState : Obligations.LegalWordsAcceptedInEveryState := by
  intro s w i hd
  rw [step_of_accepting (present_edges s w), runWord_of_decode _ hd]
  exact exec_next i _

/-- Settles O11. -/
theorem stepRunsDecodedCommand : Obligations.StepRunsDecodedCommand :=
  fun _ _ _ _ hs hr hv hc hd _ => step_of_command hs (event_of_accepted hr hv hc) hd

/-- Settles O12. -/
theorem otherEdgesHoldTheState : Obligations.OtherEdgesHoldTheState :=
  ⟨fun _ _ _ hs hr h => step_of_hold hs (event_of_idle hr h), fun _ hs => step_of_no_edges hs⟩

/-- Settles O13, by induction on the gap. -/
theorem idleGapsChangeNothing : Obligations.IdleGapsChangeNothing := by
  intro s gap rest hidle
  induction gap with
  | nil => rfl
  | cons e gap ih =>
    obtain ⟨⟨hr, h⟩, hgap⟩ := List.forall_mem_cons.1 hidle
    have hstep : step { s with edges := e :: gap ++ rest } = .next { s with edges := gap ++ rest } :=
      step_of_hold rfl (event_of_idle hr h)
    exact (run_succ_of_next gap.length hstep).trans (ih hgap)

/-- What a holding host presents again at the edge after one that did not accept (log entry 19). -/
theorem hostHolds_next {e f : PortEdge} {es : List PortEdge} (h : hostHolds (e :: f :: es) = true)
    (hv : e.cmdValid = true) (hc : e.cmdReady = false) (hre : e.rst = false) (hrf : f.rst = false) :
    hostHolds (f :: es) = true ∧ f.cmdValid = true ∧ f.word = e.word := by
  simp only [hostHolds, hv, hc, hre, hrf, Bool.and_eq_true, Bool.or_eq_true, Bool.not_true, Bool.false_eq_true,
    false_or, decide_eq_true_eq] at h
  obtain ⟨⟨⟨hfv, hop⟩, harg⟩, hes⟩ := h
  exact ⟨hes, hfv, by rw [PortEdge.word, PortEdge.word, hop, harg]⟩

/-- Settles O14, by induction on the edges: an edge that does not accept is followed by one with the same word. -/
theorem heldCommandIsTheOneAccepted : Obligations.HeldCommandIsTheOneAccepted := by
  intro e es
  induction es generalizing e with
  | nil =>
    intro _ hv hrst ⟨f, hf, hc⟩
    obtain rfl := List.mem_singleton.1 hf
    rw [firstAccepted, event_of_accepted (hrst f hf) hv hc]
  | cons f es ih =>
    intro hh hv hrst hready
    obtain ⟨hre, hrest⟩ := List.forall_mem_cons.1 hrst
    cases hc : e.cmdReady with
    | true => rw [firstAccepted, event_of_accepted hre hv hc]
    | false =>
      obtain ⟨hes, hfv, hword⟩ := hostHolds_next hh hv hc hre (hrest f List.mem_cons_self)
      have hlater : ∃ g ∈ f :: es, g.cmdReady = true := by simpa [hc] using hready
      rw [firstAccepted, event_of_idle hre (.inr hc), ← hword]
      exact ih f hes hfv hrest hlater

/-! A command list at the port (R39): accepted edge by edge, it runs as the list does, and commands do not look at the edges
to come. -/

theorem romRead_with_edges (s : State) (i : Byte) (es : List PortEdge) :
    State.romRead { s with edges := es } i = ((s.romRead i).1, { (s.romRead i).2 with edges := es }) := by
  have hstored : State.storedWord { s with edges := es } i = s.storedWord i := rfl
  unfold State.romRead
  rw [hstored]
  cases s.storedWord i <;> rfl

theorem exec_with_edges {i : Instr} {s t : State} (h : exec i s = .next t) (es : List PortEdge) :
    exec i { s with edges := es } = .next { t with edges := es } := by
  cases i with
  | init => cases h; rfl
  | seed v => cases h; rfl
  | byte b => cases h; simp only [exec, execByte, romRead_with_edges]; rfl
  | read => cases h; rfl
  | romrd x => cases h; simp only [exec, execRomrd, romRead_with_edges]; rfl

theorem accepting_event (w : CmdWord) : (PortEdge.accepting w).event = .command w := by
  rw [event_of_accepted rfl rfl rfl]
  exact congrArg PortEvent.command (commandWord_fields w)

theorem run_edgesOf {is : List Instr} {s t : State} (h : runInstrs is s = .next t) :
    Host.Core.run core is.length { s with edges := edgesOf is ++ s.edges } = .next t := by
  induction is generalizing s with
  | nil => exact h
  | cons i is ih =>
    obtain ⟨u, hu⟩ := exec_next i s
    have hedges : u.edges = s.edges := exec_keeps_edges hu
    have hstep : step { s with edges := edgesOf (i :: is) ++ s.edges } =
        .next { u with edges := edgesOf is ++ u.edges } := by
      rw [hedges, ← exec_with_edges hu]
      exact step_of_command rfl (accepting_event (encode i)) (decode_encode i)
    rw [runInstrs_cons_of_next is hu] at h
    exact (run_succ_of_next is.length hstep).trans (ih h)

/-! UPDATE on a built table (R69, R70). -/

theorem complementIn_eq_not (v : Word) : complementIn v = ~~~v := BitVec.xor_allOnes

theorem runInstrs_append {is js : List Instr} {s t : State} (h : runInstrs is s = .next t) :
    runInstrs (is ++ js) s = runInstrs js t := by
  induction is generalizing s with
  | nil => cases h; rfl
  | cons i is ih =>
    obtain ⟨u, hu⟩ := exec_next i s
    rw [runInstrs_cons_of_next is hu] at h
    rw [List.cons_append, runInstrs_cons_of_next _ hu, ih h]

/-- BYTE of a seeded accumulator on a built table only folds (R65). -/
theorem exec_byte_seeded {s : State} (hb : s.built = true) (ht : TableHolds s.table) (hd : s.seeded = true) (b : Byte) :
    exec (.byte b) s = .next (s.setAcc (nextAcc (entry (tableIndex b s.acc)) s.acc)) := by
  rw [exec_byte_built hb ht, byteCheck_eq_none.2 ⟨hb, hd⟩, mark_none]

/-- The bytes of a buffer fold into the accumulator (R70). -/
theorem runInstrs_byteCommands {s : State} (hb : s.built = true) (ht : TableHolds s.table) (hd : s.seeded = true)
    (buf : List Byte) : runInstrs (byteCommands buf) s = .next (s.setAcc (crcFold s.acc buf)) := by
  induction buf generalizing s with
  | nil => rfl
  | cons b buf ih =>
    exact (runInstrs_cons_of_next (byteCommands buf) (exec_byte_seeded hb ht hd b)).trans (ih hb ht hd)

/-- UPDATE's commands respond `update` and leave the folded accumulator, whatever was accumulated before (R69, R70). -/
theorem runInstrs_updateCommands {s : State} (hb : s.built = true) (ht : TableHolds s.table) (seed : Word)
    (buf : List Byte) :
    runInstrs (updateCommands seed buf) s =
      .next ((s.seedAcc (crcFold (~~~seed) buf)).respond (crcUpdate buf seed)) := by
  have hseed : exec (.seed seed) s = .next (s.seedAcc (~~~seed)) := by
    rw [← complementIn_eq_not]
    rfl
  have hread : exec .read (s.seedAcc (crcFold (~~~seed) buf)) =
      .next ((s.seedAcc (crcFold (~~~seed) buf)).respond (crcUpdate buf seed)) := by
    rw [exec_read_seeded rfl, crcUpdate, complementOut_eq_not, complementIn_eq_not]
    rfl
  have hbytes := runInstrs_byteCommands (s := s.seedAcc (~~~seed)) hb ht rfl buf
  rw [updateCommands, runInstrs_cons_of_next _ hseed, runInstrs_append hbytes]
  exact runInstrs_cons_of_next [] hread

theorem updateCommands_length (seed : Word) (buf : List Byte) : (updateCommands seed buf).length = buf.length + 2 := by
  simp [updateCommands, byteCommands]

/-- Settles O42: at the port UPDATE runs as its command list does. -/
theorem updateAtThePort : Obligations.UpdateAtThePort := by
  intro s buf seed hb ht
  rw [← updateCommands_length seed buf]
  exact run_edgesOf (runInstrs_updateCommands hb ht seed buf)

/-- Settles O31, command by command; a table read leaves the responses. -/
theorem oneResponsePerReadOrRomrd : Obligations.OneResponsePerReadOrRomrd := by
  intro i s
  cases i with
  | init => exact ⟨_, [], rfl, by simp, rfl⟩
  | seed v => exact ⟨_, [], rfl, by simp, rfl⟩
  | byte b => exact ⟨_, [], rfl, by simp, rfl⟩
  | read => exact ⟨_, [complementOut s.acc], rfl, by simp, rfl⟩
  | romrd x => exact ⟨_, [(s.romRead x).1], rfl, by simp, rfl⟩

/-! The assembler's lines (R50). -/

/-- A command word as a number: the opcode above 32 bits of argument (R41). -/
theorem commandWord_ofNat (op : Op) (arg : Word) :
    commandWord op arg = BitVec.ofNat 35 (op.toNat * 2 ^ 32 + arg.toNat) := by
  apply BitVec.eq_of_toNat_eq
  rw [commandWord, BitVec.toNat_append, ← Nat.shiftLeft_add_eq_or_of_lt arg.isLt, Nat.shiftLeft_eq, BitVec.toNat_ofNat,
    Nat.mod_eq_of_lt (by omega)]

theorem encode_seed_ofNat {v : Nat} (h : v ≤ 0xFFFFFFFF) :
    encode (.seed (BitVec.ofNat 32 v)) = BitVec.ofNat 35 (0x100000000 + v) := by
  rw [encode, commandWord_ofNat, BitVec.toNat_ofNat, Nat.mod_eq_of_lt (by omega)]
  rfl

theorem encode_byte_ofNat {b : Nat} (h : b ≤ 0xFF) :
    encode (.byte (BitVec.ofNat 8 b)) = BitVec.ofNat 35 (0x200000000 + b) := by
  rw [encode, commandWord_ofNat, BitVec.toNat_setWidth_of_le (by decide), BitVec.toNat_ofNat, Nat.mod_eq_of_lt (by omega)]
  rfl

theorem encode_romrd_ofNat {i : Nat} (h : i ≤ 0xFF) :
    encode (.romrd (BitVec.ofNat 8 i)) = BitVec.ofNat 35 (0x400000000 + i) := by
  rw [encode, commandWord_ofNat, BitVec.toNat_setWidth_of_le (by decide), BitVec.toNat_ofNat, Nat.mod_eq_of_lt (by omega)]
  rfl

theorem assemble_eq {l : AsmLine} {p : Prop} [Decidable p] {w : CmdWord} (hwf : l.wellFormed = true ↔ p)
    (hw : p → encode (instrOfLine l) = w) : assemble l = if p then some w else none := by
  unfold assemble
  by_cases h : p
  · rw [if_pos h, if_pos (hwf.2 h), hw h]
  · rw [if_neg h, if_neg (mt hwf.1 h)]

/-- Settles O50: a line assembles exactly when its operand is in range, to the word whose number R50 prints. -/
theorem assemblerLinesEncode : Obligations.AssemblerLinesEncode := by
  refine ⟨by decide, by decide, fun v => assemble_eq decide_eq_true_iff encode_seed_ofNat,
    fun b => assemble_eq decide_eq_true_iff encode_byte_ofNat, fun c hlo hhi => ?_,
    fun i => assemble_eq decide_eq_true_iff encode_romrd_ofNat⟩
  have hprint : (AsmLine.byteChar c).wellFormed = true := by
    simp [AsmLine.wellFormed, printable, hlo, hhi]
  rw [assemble, if_pos hprint]
  exact congrArg some (encode_byte_ofNat (by omega))

/-! The port of one engine of several (R90). -/

/-- What is stored at an engine does not depend on the lane that was there. -/
theorem put_after_set (m : Engines) (k : Nat) (l : Lane) (t : State) :
    Engines.put { m with lanes := m.lanes.set k l } k t = m.put k t := by
  simp [Engines.put]

/-- What answers alike for an engine and for that engine with another lane in its place answers alike for the product. -/
theorem atEngine_set {m : Engines} {k : Nat} {l l' : Lane} {f g : State → Host.Outcome State Fault Refusal}
    (hl : m.lanes[k]? = some l) (hfg : f (m.view l) = g (m.view l')) :
    m.atEngine k f = Engines.atEngine { m with lanes := m.lanes.set k l' } k g := by
  obtain ⟨hk, -⟩ := List.getElem?_eq_some_iff.1 hl
  have hl' : (m.lanes.set k l')[k]? = some l' := List.getElem?_set_self hk
  have hview : Engines.view { m with lanes := m.lanes.set k l' } l' = m.view l' := rfl
  simp only [Engines.atEngine, hl, hl', hview, hfg, put_after_set]

/-- Settles O52: the product's step is the single machine's on the engine's view, which its lane and the shared state make
up. -/
theorem engineStepIsTheSingleMachines : Obligations.EngineStepIsTheSingleMachines := by
  refine ⟨fun m k l hl => ⟨fun t ht => ?_, fun r hr => atEngine_refused hl hr⟩,
    fun m k l e es i hl he hr hv hc hd => ?_⟩
  · exact ⟨m.put k t, laneOf t, atEngine_next hl ht, put_lane_same t hl, view_laneOf_put m k t⟩
  · exact atEngine_set hl (step_of_command he (event_of_accepted hr hv hc) hd)

end Sys2Proof.Proofs

/-! PROOFS. The table builder's statements (40_table_builder.md): the division step and its branchless form, what eight
steps of a word leave, and INIT and ROMRD on the table they build. -/

namespace Sys2Proof.Proofs

open Sys2Proof.Machine Sys2Proof.Safety Sys2Proof.Laws

/-! The division step by the value of the bit it shifts out (R53), and the mask that selects alike (R54). -/

theorem step1_of_even {r : Word} (h : r.getLsbD 0 = false) : step1 r = r >>> 1 := by
  rw [step1, h, if_neg Bool.false_ne_true, BitVec.xor_zero]

/-- The shift is logical (R53). -/
theorem shiftRight_one_getLsbD_top (r : Word) : (r >>> 1).getLsbD 31 = false := by
  rw [BitVec.getLsbD_ushiftRight]
  exact BitVec.getLsbD_of_ge r _ le_rfl

theorem low_bit_eq (r : Word) : r &&& 1#32 = if r.getLsbD 0 then 1#32 else 0#32 := by
  rw [BitVec.and_one_eq_setWidth_ofBool_getLsbD]
  cases r.getLsbD 0 <;> rfl

theorem mask_of_odd {r : Word} (h : r.getLsbD 0 = true) : (r &&& 1#32) - 1#32 = 0x00000000#32 := by
  rw [low_bit_eq, h]
  rfl

theorem mask_of_even {r : Word} (h : r.getLsbD 0 = false) : (r &&& 1#32) - 1#32 = 0xFFFFFFFF#32 := by
  rw [low_bit_eq, h]
  rfl

/-- R54: the mask selects what the multiplexer of R53 selects. -/
theorem poly_and_mask (r : Word) :
    Config.poly &&& ~~~((r &&& 1#32) - 1#32) = if r.getLsbD 0 then Config.poly else 0#32 := by
  cases h : r.getLsbD 0 with
  | true => rw [mask_of_odd h]; rfl
  | false => rw [mask_of_even h]; rfl

theorem step1Mask_eq_step1 (r : Word) : step1Mask r = step1 r := by
  rw [step1Mask, poly_and_mask, step1]

/-- Settles O17: the mask is the multiplexer. -/
theorem branchlessStepAgrees : Obligations.BranchlessStepAgrees := by
  refine ⟨fun r => (step1Mask_eq_step1 r).symm, step1Mask_eq_step1, fun r h => ⟨mask_of_odd h, ?_⟩,
    fun r h => ⟨mask_of_even h, ?_⟩⟩
  · rw [poly_and_mask, if_pos h]
  · rw [poly_and_mask, h]
    rfl

/-- Settles O16: the equation is the definition, and the examples are evaluated. -/
theorem divisionStep : Obligations.DivisionStep := by
  refine ⟨fun _ => rfl, shiftRight_one_getLsbD_top, fun _ => step1_of_even, ?_⟩
  decide

/-! Linearity over XOR (R56 (a)). -/

theorem mux_xor (p q : Bool) (v : Word) :
    (if p ^^ q then v else 0#32) = (if p then v else 0#32) ^^^ (if q then v else 0#32) := by
  cases p <;> cases q <;> simp

theorem step1_xor (a b : Word) : step1 (a ^^^ b) = step1 a ^^^ step1 b := by
  simp only [step1, BitVec.ushiftRight_xor_distrib, BitVec.getLsbD_xor, mux_xor]
  ac_rfl

theorem step1Times_xor (k : Nat) (a b : Word) : step1Times k (a ^^^ b) = step1Times k a ^^^ step1Times k b := by
  induction k generalizing a b with
  | zero => rfl
  | succ k ih => simp only [step1Times, step1_xor, ih]

theorem entry_eq_step1Times (i : Byte) : entry i = step1Times 8 (i.setWidth 32) := rfl

theorem entry_xor (i j : Byte) : entry (i ^^^ j) = entry i ^^^ entry j := by
  simp only [entry_eq_step1Times, BitVec.setWidth_xor, step1Times_xor]

/-! Runs of steps: how many there are adds up, and steps that shift out zeros only shift (R56 (c), (f)). -/

theorem step1Times_add (m n : Nat) (r : Word) : step1Times (m + n) r = step1Times n (step1Times m r) := by
  induction m generalizing r with
  | zero => rw [Nat.zero_add, step1Times]
  | succ m ih => rw [Nat.succ_add, step1Times, ih, step1Times]

theorem step1Times_of_low_zeros {k : Nat} {r : Word} (h : ∀ j < k, r.getLsbD j = false) :
    step1Times k r = r >>> k := by
  induction k generalizing r with
  | zero => rw [step1Times, BitVec.ushiftRight_zero]
  | succ k ih =>
    have hlow : ∀ j < k, (r >>> 1).getLsbD j = false := fun j hj => by
      rw [BitVec.getLsbD_ushiftRight]
      exact h _ (by omega)
    rw [step1Times, step1_of_even (h 0 k.succ_pos), ih hlow, ← BitVec.shiftRight_add, Nat.add_comm]

/-- A single set bit reaches bit 0 with nothing XORed in (R56 (c)). -/
theorem step1Times_ofNat_two_pow {k : Nat} (hk : k < 32) : step1Times k (BitVec.ofNat 32 (2 ^ k)) = 1#32 := by
  have hbits : ∀ j < k, (BitVec.ofNat 32 (2 ^ k)).getLsbD j = false := fun j hj => by
    rw [BitVec.getLsbD_ofNat, Nat.testBit_two_pow_of_ne hj.ne', Bool.and_false]
  rw [step1Times_of_low_zeros hbits]
  apply BitVec.eq_of_toNat_eq
  rw [BitVec.toNat_ushiftRight, BitVec.toNat_ofNat, Nat.mod_eq_of_lt (Nat.pow_lt_pow_right (by decide) hk),
    Nat.shiftRight_eq_div_pow, Nat.div_self (Nat.two_pow_pos k)]
  rfl

/-- R56 (d) with the exponent its listed words have (log entry 15). -/
theorem entry_ofNat_two_pow {k : Nat} (hk : k ≤ 7) :
    entry (BitVec.ofNat 8 (2 ^ k)) = step1Times (8 - k) 0x00000001#32 := by
  have hpow : 2 ^ k < 2 ^ 8 := Nat.pow_lt_pow_right (by decide) (by omega)
  have hzext : (BitVec.ofNat 8 (2 ^ k)).setWidth 32 = BitVec.ofNat 32 (2 ^ k) :=
    BitVec.setWidth_ofNat_of_le_of_lt (by decide) hpow
  calc entry (BitVec.ofNat 8 (2 ^ k))
      = step1Times (k + (8 - k)) (BitVec.ofNat 32 (2 ^ k)) := by
        rw [entry_eq_step1Times, hzext, Nat.add_sub_cancel' (by omega)]
    _ = step1Times (8 - k) 0x00000001#32 := by
        rw [step1Times_add, step1Times_ofNat_two_pow (by omega)]

/-- R56 (f): the bits above the low byte only shift, and their contribution adds by XOR. -/
theorem step1Times_eight (c : Word) : step1Times 8 c = entry (lowByte c) ^^^ (c >>> 8) := by
  have hlow : ∀ j < 8, (c ^^^ (lowByte c).setWidth 32).getLsbD j = false := fun j hj => by
    simp [lowByte, hj, (by omega : j < 32)]
  have hhigh : (lowByte c).setWidth 32 >>> 8 = 0#32 := by
    apply BitVec.eq_of_toNat_eq
    rw [BitVec.toNat_ushiftRight, BitVec.toNat_setWidth_of_le (by decide), Nat.shiftRight_eq_div_pow,
      Nat.div_eq_of_lt (lowByte c).isLt]
    rfl
  calc step1Times 8 c
      = step1Times 8 ((lowByte c).setWidth 32 ^^^ (c ^^^ (lowByte c).setWidth 32)) := by
        rw [BitVec.xor_comm c, ← BitVec.xor_assoc, BitVec.xor_self, BitVec.zero_xor]
    _ = entry (lowByte c) ^^^ ((c ^^^ (lowByte c).setWidth 32) >>> 8) := by
        rw [step1Times_xor, step1Times_of_low_zeros hlow, entry_eq_step1Times]
    _ = entry (lowByte c) ^^^ (c >>> 8) := by
        rw [BitVec.ushiftRight_xor_distrib, hhigh, BitVec.xor_zero]

/-! Distinct top bytes (R56 (e)). A step puts the bit it shifts out into bit 31, so the top `k` bits after `k` steps
tell whether any of the low `k` bits was set; with linearity, zero is the only index to check. -/

theorem step1_getLsbD_top (r : Word) : (step1 r).getLsbD 31 = r.getLsbD 0 := by
  rw [step1, BitVec.getLsbD_xor, shiftRight_one_getLsbD_top, Bool.false_xor]
  cases r.getLsbD 0 <;> rfl

theorem low_zeros_of_step1Times_top_zeros {k : Nat} {r : Word} (hk : k ≤ 32)
    (h : ∀ j < k, (step1Times k r).getLsbD (31 - j) = false) : ∀ j < k, r.getLsbD j = false := by
  induction k with
  | zero => simp
  | succ k ih =>
    have hstep : step1Times (k + 1) r = step1 (step1Times k r) := step1Times_add k 1 r
    have hbit : (step1Times k r).getLsbD 0 = false := by
      rw [← step1_getLsbD_top, ← hstep]
      exact h 0 k.succ_pos
    have hlow : ∀ j < k, r.getLsbD j = false := ih (by omega) fun j hj => by
      have hj' := h (j + 1) (by omega)
      rwa [hstep, step1_of_even hbit, BitVec.getLsbD_ushiftRight, (by omega : 1 + (31 - (j + 1)) = 31 - j)] at hj'
    intro j hj
    obtain hj | rfl := Nat.lt_succ_iff_lt_or_eq.1 hj
    · exact hlow j hj
    · rwa [step1Times_of_low_zeros hlow, BitVec.getLsbD_ushiftRight] at hbit

theorem eq_zero_of_entry_top_eq_zero {i : Byte} (h : (entry i).extractLsb' 24 8 = 0#8) : i = 0#8 := by
  have htop : ∀ j < 8, (step1Times 8 (i.setWidth 32)).getLsbD (31 - j) = false := fun j hj => by
    have hj' := congrArg (fun v => v.getLsbD (7 - j)) h
    simpa [entry_eq_step1Times, (by omega : 7 - j < 8), (by omega : 24 + (7 - j) = 31 - j)] using hj'
  apply BitVec.eq_of_getLsbD_eq
  intro j hj
  have hbit := low_zeros_of_step1Times_top_zeros (by decide) htop j hj
  simpa [(by omega : j < 32)] using hbit

theorem eq_of_entry_top_eq {i j : Byte} (h : (entry i).extractLsb' 24 8 = (entry j).extractLsb' 24 8) : i = j := by
  apply BitVec.xor_eq_zero_iff.1
  apply eq_zero_of_entry_top_eq_zero
  rw [entry_xor, BitVec.extractLsb'_xor, h, BitVec.xor_self]

/-! The words that the rules' examples name (R56, R58, R61). -/

theorem entry_0x00 : entry 0x00#8 = 0x00000000#32 := by decide

theorem entry_0x01 : entry 0x01#8 = 0x77073096#32 := by decide

theorem entry_0x80 : entry 0x80#8 = 0xEDB88320#32 := by decide

theorem entry_0xFF : entry 0xFF#8 = 0x2D02EF8D#32 := by decide

/-- Settles O19: linearity, bits that only shift, and top bytes with a trivial kernel. -/
theorem entryProperties : Obligations.EntryProperties :=
  ⟨step1_xor, entry_xor, entry_0x00, entry_0x80, rfl, fun _ => entry_ofNat_two_pow, by decide, by decide, by decide,
    by decide, by decide, by decide, entry_0x01, fun _ _ h => eq_of_entry_top_eq (by rw [h]),
    fun _ _ => eq_of_entry_top_eq, fun _ h => congrArg (step1Times 8) (setWidth_argByte h).symm, step1Times_eight⟩

/-- Settles O18: `STEPS_PER_ENTRY` is 8. -/
theorem entryIsEightSteps : Obligations.EntryIsEightSteps :=
  ⟨fun _ => rfl, by decide⟩

/-- Refutes O20: at `k = 0` the entry of 0x01 takes eight steps, not the one step of the printed exponent
(log entry 15). -/
theorem not_generatorFormulaAsPrinted : ¬ Obligations.GeneratorFormulaAsPrinted := by
  intro h
  have hentry : entry 0x01#8 = 0xEDB88320#32 := h 0 (by decide)
  exact absurd hentry (by decide)

/-! The table that building leaves (R57, R60). -/

theorem mem_range_of_byte (i : Byte) : i.toNat ∈ List.range Config.tableDepth :=
  List.mem_range.2 i.isLt

/-- Building over any list that names every index leaves `entry` at each. -/
theorem tableHolds_buildFrom {is : List Nat} (t : Table) (h : ∀ i : Byte, i.toNat ∈ is) :
    TableHolds (buildFrom t is) := by
  intro i
  rw [buildFrom_read (h i), BitVec.ofNat_toNat, BitVec.setWidth_eq]

/-- The order in which the indexes are visited is immaterial (R57). -/
theorem buildFrom_perm {t : Table} {is : List Nat} (ht : t.wf = true) (h : is.Perm (List.range Config.tableDepth)) :
    buildFrom t is = buildTable t := by
  have hbound : ∀ i ∈ is, i < Config.tableDepth := fun i hi => List.mem_range.1 (h.mem_iff.1 hi)
  have hevery : ∀ i : Byte, i.toNat ∈ is := fun i => h.mem_iff.2 (mem_range_of_byte i)
  exact eq_of_tableHolds (wf_buildFrom ht hbound) (wf_buildTable ht) (tableHolds_buildFrom t hevery)
    (tableHolds_buildTable t)

/-- Settles O21: what is built holds `entry` and is in form, and that determines a table. -/
theorem buildTableStoresEntry : Obligations.BuildTableStoresEntry := by
  refine ⟨tableHolds_buildTable, fun _ _ ht => buildFrom_perm ht,
    fun t ht => buildTable_of_tableHolds (wf_buildTable ht) (tableHolds_buildTable t), fun t => ?_⟩
  unfold buildTable
  rfl

/-- Tables in form build to one table, whatever they held. -/
theorem buildTable_eq {t t' : Table} (h : t.wf = true) (h' : t'.wf = true) : buildTable t = buildTable t' :=
  eq_of_tableHolds (wf_buildTable h) (wf_buildTable h') (tableHolds_buildTable t) (tableHolds_buildTable t')

/-- A table in form that lists every index from `lo` upwards lists nothing else. -/
theorem length_of_lists_all {t : Table} {lo : Nat} (h : Table.risingFrom lo t = true) (hlo : lo ≤ Config.tableDepth)
    (hall : ∀ i, lo ≤ i → i < Config.tableDepth → t.read i ≠ none) : t.length = Config.tableDepth - lo := by
  induction t generalizing lo with
  | nil =>
    have hend : ¬ lo < Config.tableDepth := fun hlt => hall lo le_rfl hlt rfl
    simp only [List.length_nil]
    omega
  | cons c t ih =>
    obtain ⟨a, u⟩ := c
    obtain ⟨hle, hlt, hrest⟩ := (risingFrom_cons lo a u t).1 h
    have hfirst : a = lo := by
      by_contra hne
      refine hall lo le_rfl (by omega) ?_
      rw [Table.read, if_neg hne]
      exact read_eq_none_below hrest (by omega)
    subst hfirst
    have hlen : t.length = Config.tableDepth - (a + 1) := ih hrest hlt fun i hi hd => by
      have hread := hall i (by omega) hd
      rwa [Table.read, if_neg (by omega)] at hread
    rw [List.length_cons, hlen]
    omega

theorem length_of_tableHolds {t : Table} (h : t.wf = true) (ht : TableHolds t) : t.length = 256 := by
  refine length_of_lists_all h (Nat.zero_le _) fun i _ hi => ?_
  have hread := ht (BitVec.ofNat 8 i)
  rw [BitVec.toNat_ofNat, Nat.mod_eq_of_lt (show i < 2 ^ 8 from hi)] at hread
  simp [hread]

/-! Commands under the stopping outcome (R80), and arguments that name no command (R47). -/

theorem checkedExec_of_unmarked {i : Instr} {s t : State} (h : exec i s = .next t) (hm : t.faultMark = none) :
    checkedExec i s = .next t := by
  simp only [checkedExec, h, stopAtMark, hm]

theorem checkedExec_of_marked {i : Instr} {s t : State} {f : Fault} (h : exec i s = .next t)
    (hm : t.faultMark = some f) : checkedExec i s = .fault f := by
  simp only [checkedExec, h, stopAtMark, hm]

theorem decode_init_reserved {arg : Word} (h : arg ≠ 0#32) : decode (commandWord 0 arg) = .error .argument := by
  simp [decode, commandWord_opField, commandWord_argField, h]

theorem decode_romrd_reserved {arg : Word} (h : argHigh arg ≠ 0#24) :
    decode (commandWord 4 arg) = .error .argument := by
  simp [decode, commandWord_opField, commandWord_argField, h]

/-! INIT (R58 to R60, R62). -/

theorem exec_init (s : State) : exec .init s = .next (s.setBuiltTable (buildTable s.table)) := rfl

/-- After INIT every index reads `entry`. -/
theorem storedWord_setBuiltTable (s : State) (t : Table) (i : Byte) :
    (s.setBuiltTable (buildTable t)).storedWord i = some (entry i) := by
  rw [State.storedWord, setBuiltTable_built, if_pos rfl, setBuiltTable_table, tableHolds_buildTable t i]

/-- Settles O22: INIT is one update of the table and its flag, and marks nothing. -/
theorem initBuildsTable : Obligations.InitBuildsTable := by
  refine ⟨by decide, fun arg harg i hi => ?_,
    fun s => ⟨exec_init s, tableHolds_buildTable s.table, checkedExec_of_unmarked (exec_init s)⟩,
    ⟨_, exec_init _, rfl, accValue_unseeded rfl, ?_, ?_, ?_, ?_⟩⟩
  · rw [decode_init_reserved harg] at hi
    cases hi
  · rw [storedWord_setBuiltTable, entry_0x00]
  · rw [storedWord_setBuiltTable, entry_0x01]
  · rw [storedWord_setBuiltTable, entry_0x80]
  · rw [storedWord_setBuiltTable, entry_0xFF]

/-- Settles O23: the words and the flag INIT writes are those that stand there. -/
theorem repeatedInitChangesNothing : Obligations.RepeatedInitChangesNothing := by
  intro s hs hb
  obtain ⟨hwf, hholds, -⟩ := hs
  rw [exec_init, buildTable_of_tableHolds hwf (hholds hb), State.setBuiltTable, ← hb]

/-- Settles O24: both states build the one table in form that holds `entry`. -/
theorem tableAfterInitIsConstant : Obligations.TableAfterInitIsConstant := by
  intro s s' hs hs'
  have hwf := wf_buildTable hs
  have hholds := tableHolds_buildTable s.table
  have hzero : (buildTable s.table).read 0 = some (entry 0x00#8) := hholds 0x00#8
  refine ⟨_, _, exec_init s, exec_init s', buildTable_eq hs hs', length_of_tableHolds hwf hholds,
    fun n hn => read_eq_none_above hwf hn, ?_, hholds⟩
  rw [← entry_0x00]
  exact hzero

/-- Settles O5, command by command: only INIT stores, and it stores every word. -/
theorem tableWrittenOnlyWhole : Obligations.TableWrittenOnlyWhole := by
  intro i s t h
  refine ⟨?_, exec_keeps_built h, rfl, rfl⟩
  cases i with
  | init =>
    cases h
    exact .inr ⟨rfl, tableHolds_buildTable s.table, rfl⟩
  | seed v => cases h; exact .inl ⟨by simp, rfl, rfl⟩
  | byte b => cases h; exact .inl ⟨by simp, by simp, by simp⟩
  | read => cases h; exact .inl ⟨by simp, rfl, rfl⟩
  | romrd x => cases h; exact .inl ⟨by simp, by simp, by simp⟩

/-! ROMRD (R61). -/

theorem encode_romrd_toNat (i : Byte) : (encode (.romrd i)).toNat = 0x400000000 + i.toNat := by
  have hlt := i.isLt
  have hw := encode_romrd_ofNat (i := i.toNat) (by omega)
  rw [BitVec.ofNat_toNat, BitVec.setWidth_eq] at hw
  rw [hw, BitVec.toNat_ofNat, Nat.mod_eq_of_lt (by omega)]

/-- ROMRD of an unbuilt table records `UseBeforeInit`, unless a fault is recorded already (R81). -/
theorem exec_romrd_unbuilt_mark {s t : State} {x : Byte} (hb : s.built = false) (h : exec (.romrd x) s = .next t) :
    t.faultMark = s.faultMark.or (some .useBeforeInit) := by
  cases h
  simp [State.tableCheck, hb]

/-- Settles O25: a built table is only read, an unbuilt one leaves the mark the checked outcome stops at. -/
theorem romrdRespondsTableWord : Obligations.RomrdRespondsTableWord := by
  refine ⟨encode_romrd_toNat, fun arg harg i hi => ?_, fun s i hb ht => exec_romrd_built_responds hb ht i,
    fun s i hb hm => ?_, fun s hb ht => ⟨?_, ?_, ?_⟩, by decide⟩
  · rw [decode_romrd_reserved harg] at hi
    cases hi
  · obtain ⟨t, ht⟩ := exec_next (.romrd i) s
    refine checkedExec_of_marked ht ?_
    rw [exec_romrd_unbuilt_mark hb ht, hm]
    rfl
  · rw [exec_romrd_built_responds hb ht, entry_0x00, State.respond]
  · rw [exec_romrd_built_responds hb ht, entry_0xFF, State.respond]
  · rw [exec_romrd_built_responds hb ht, entry_0x80, State.respond]

end Sys2Proof.Proofs

/-! PROOFS. The streaming engine's statements (41_streaming_engine.md): its commands one by one, the datapath and its
division-step form, the laws of `fold` and `update`, and what command lists leave. -/

namespace Sys2Proof.Proofs

open Sys2Proof.Machine Sys2Proof.Safety Sys2Proof.Laws

/-! The words of the engine's commands (R41, R43, R47). -/

theorem encode_toNat (i : Instr) : (encode i).toNat = (opcodeOf i).toNat * 2 ^ 32 + (argumentOf i).toNat := by
  rw [encode_eq_commandWord, commandWord_ofNat, BitVec.toNat_ofNat, Nat.mod_eq_of_lt (by omega)]

theorem encode_seed_toNat (v : Word) : (encode (.seed v)).toNat = 0x100000000 + v.toNat := by
  simp [encode_toNat, opcodeOf, argumentOf]

theorem encode_byte_toNat (b : Byte) : (encode (.byte b)).toNat = 0x200000000 + b.toNat := by
  rw [encode_toNat, argumentOf, BitVec.toNat_setWidth_of_le (by decide)]
  simp [opcodeOf]

theorem decode_byte_reserved {arg : Word} (h : argHigh arg ≠ 0#24) :
    decode (commandWord 2 arg) = .error .argument := by
  simp [decode, commandWord_opField, commandWord_argField, h]

theorem decode_read_reserved {arg : Word} (h : arg ≠ 0#32) : decode (commandWord 3 arg) = .error .argument := by
  simp [decode, commandWord_opField, commandWord_argField, h]

/-! The complement at both ends (R64, R68, R74). -/

theorem not_eq_xor_ones (v : Word) : ~~~v = v ^^^ 0xFFFFFFFF#32 := BitVec.xor_allOnes.symm

@[simp] theorem complementIn_complementOut (v : Word) : complementIn (complementOut v) = v := by
  rw [complementIn_eq_not, complementOut_eq_not, BitVec.not_not]

theorem exec_seed (v : Word) (s : State) : exec (.seed v) s = .next (s.seedAcc (~~~v)) := by
  rw [← complementIn_eq_not]
  rfl

theorem exec_read (s : State) : exec .read s = .next ((s.respond (~~~s.acc)).mark s.accCheck) := by
  rw [← complementOut_eq_not]
  rfl

theorem exec_read_responses {s t : State} (h : exec .read s = .next t) : t.responses = s.responses ++ [~~~s.acc] := by
  rw [exec_read] at h
  cases h
  rfl

/-- SEED of a word complemented loads the word (R74). -/
theorem exec_seed_not (c : Word) (s : State) : exec (.seed (~~~c)) s = .next (s.seedAcc c) := by
  rw [exec_seed, BitVec.not_not]

theorem runInstrs_seed_read (v : Word) (s : State) :
    runInstrs [.seed v, .read] s = .next ((s.seedAcc (~~~v)).respond v) := by
  have hread : exec .read (s.seedAcc (~~~v)) = .next ((s.seedAcc (~~~v)).respond v) := by
    rw [exec_read_seeded rfl, seedAcc_acc, BitVec.not_not]
  rw [runInstrs_cons_of_next _ (exec_seed v s)]
  exact runInstrs_cons_of_next [] hread

/-- Settles O27: SEED is one update of the accumulator and its validity, and marks nothing. -/
theorem seedLoadsComplement : Obligations.SeedLoadsComplement :=
  ⟨encode_seed_toNat,
    fun s v => ⟨exec_seed v s, not_eq_xor_ones v, fun hm => checkedExec_of_unmarked rfl hm⟩,
    fun s => ⟨exec_seed _ s, exec_seed _ s, exec_seed _ s⟩,
    by decide,
    fun _ _ _ => rfl⟩

/-- Settles O45: both ends are the same XOR with all ones, and no word is its own complement. -/
theorem complementIdiom : Obligations.ComplementIdiom := by
  refine ⟨fun v => ⟨complementIn_eq_not v, complementOut_eq_not v, not_eq_xor_ones v, ?_, ?_⟩,
    fun s c => exec_seed_not c s, fun s => exec_seed _ s, fun s t h => exec_read_responses h⟩
  · rw [complementIn_eq_not]
    exact BitVec.not_self_ne (by decide)
  · rw [complementOut_eq_not]
    exact BitVec.not_self_ne (by decide)

/-! The faults of BYTE and READ, in R85's order, and the mark they leave. -/

theorem tableCheck_unbuilt {s : State} (hb : s.built = false) : s.tableCheck = some .useBeforeInit := by
  simp [State.tableCheck, hb]

theorem accCheck_unseeded {s : State} (hd : s.seeded = false) : s.accCheck = some .useBeforeSeed := by
  simp [State.accCheck, hd]

theorem byteCheck_unbuilt {s : State} (hb : s.built = false) : s.byteCheck = some .useBeforeInit := by
  rw [State.byteCheck, tableCheck_unbuilt hb, Option.some_or]

theorem byteCheck_unseeded {s : State} (hb : s.built = true) (hd : s.seeded = false) :
    s.byteCheck = some .useBeforeSeed := by
  rw [State.byteCheck, tableCheck_eq_none.2 hb, accCheck_unseeded hd, Option.none_or]

/-- With nothing recorded BYTE stops at the fault its check finds. -/
theorem checkedExec_byte_fault {s : State} {f : Fault} (b : Byte) (hm : s.faultMark = none)
    (hc : s.byteCheck = some f) : checkedExec (.byte b) s = .fault f := by
  obtain ⟨t, ht⟩ := exec_next (.byte b) s
  refine checkedExec_of_marked ht ?_
  cases ht
  simp [hm, hc]

/-- With nothing recorded READ of an unseeded accumulator stops (R82). -/
theorem checkedExec_read_unseeded {s : State} (hm : s.faultMark = none) (hd : s.seeded = false) :
    checkedExec .read s = .fault .useBeforeSeed := by
  refine checkedExec_of_marked (exec_read s) ?_
  rw [mark_faultMark, respond_faultMark, hm, accCheck_unseeded hd, Option.none_or]

/-- Settles O29: a seeded READ only responds, an unseeded one leaves the mark the checked outcome stops at. -/
theorem readRespondsComplement : Obligations.ReadRespondsComplement := by
  refine ⟨by decide, fun arg harg i hi => ?_, fun s hd => ⟨exec_read_seeded hd, not_eq_xor_ones _⟩,
    fun s hd hm => checkedExec_read_unseeded hm hd, fun s v => runInstrs_seed_read v s,
    fun s hd => readsAreIdempotent.1 s 2 hd, fun s hd hacc => ?_⟩
  · rw [decode_read_reserved harg] at hi
    cases hi
  · have hnot : ~~~0x340BC6D9#32 = 0xCBF43926#32 := by decide
    rw [exec_read_seeded hd, hacc, hnot, State.respond, hacc]

/-- Settles O35: the check of an unbuilt table fails, and its read draws. -/
theorem tableUseBeforeInitGoesOn : Obligations.TableUseBeforeInitGoesOn := by
  intro s b hb
  constructor
  · rw [exec, execByte, romRead_unbuilt hb, byteCheck_unbuilt hb]
    rfl
  · rw [exec, execRomrd, romRead_unbuilt hb, tableCheck_unbuilt hb]
    rfl

/-- Settles O36: the check of an unseeded accumulator fails, and its bits are used. -/
theorem accUseBeforeSeedGoesOn : Obligations.AccUseBeforeSeedGoesOn := by
  refine fun s b hd => ⟨?_, fun hb ht => ?_⟩
  · rw [exec_read, accCheck_unseeded hd]
    rfl
  · rw [exec_byte_built hb ht, byteCheck_unseeded hb hd]
    rfl

/-! The datapath bit by bit (R63). -/

theorem nextAcc_getLsbD (word acc : Word) (j : Nat) :
    (nextAcc word acc).getLsbD j = (word.getLsbD j ^^ acc.getLsbD (8 + j)) := by
  rw [nextAcc, BitVec.getLsbD_xor, BitVec.getLsbD_ushiftRight]

/-- The shift brings zeros into the top byte. -/
theorem nextAcc_getLsbD_top (word acc : Word) {j : Nat} (hj : 24 ≤ j) :
    (nextAcc word acc).getLsbD j = word.getLsbD j := by
  rw [nextAcc_getLsbD, BitVec.getLsbD_of_ge acc _ (by omega), Bool.xor_false]

theorem nextAcc_topByte (word acc : Word) : (nextAcc word acc).extractLsb' 24 8 = word.extractLsb' 24 8 := by
  apply BitVec.eq_of_getLsbD_eq
  intro j _
  rw [BitVec.getLsbD_extractLsb', BitVec.getLsbD_extractLsb', nextAcc_getLsbD_top word acc (Nat.le_add_right 24 j)]

theorem takeEvent_keeps_acc (s : State) : s.takeEvent.2.acc = s.acc := by
  unfold State.takeEvent
  split <;> rfl

/-- An edge without a command holds ACC. -/
theorem step_keeps_acc_of_hold {s t : State} (hv : s.takeEvent.1 = .hold) (h : step s = .next t) : t.acc = s.acc := by
  simp only [step, hv] at h
  cases h
  exact takeEvent_keeps_acc s

/-- Settles O26: the ACC input is read off each command's next state. -/
theorem datapathOfAcc : Obligations.DatapathOfAcc := by
  refine ⟨fun _ _ => rfl, fun word acc j _ => ?_, fun word acc j hj _ => nextAcc_getLsbD_top word acc hj,
    fun i s t h => ?_, fun s t h => exec_read_responses h, fun s t => step_keeps_acc_of_hold⟩
  · rw [nextAcc_getLsbD, Nat.add_comm]
  · cases i with
    | init => cases h; rfl
    | seed v => cases h; exact complementIn_eq_not v
    | byte b => cases h; rfl
    | read => cases h; rfl
    | romrd x => cases h; simp

/-! BYTE as eight division steps (R76), which shows its map of ACC to be a bijection (R65). -/

theorem setWidth_shiftRight_eight (b : Byte) : b.setWidth 32 >>> 8 = 0#32 := by
  apply BitVec.eq_of_toNat_eq
  rw [BitVec.toNat_ushiftRight, BitVec.toNat_setWidth_of_le (by decide), Nat.shiftRight_eq_div_pow,
    Nat.div_eq_of_lt b.isLt]
  rfl

theorem lowByte_xor_setWidth (acc : Word) (b : Byte) : lowByte (acc ^^^ b.setWidth 32) = tableIndex b acc := by
  have hb : (b.setWidth 32).extractLsb' 0 8 = b := argByte_setWidth b
  rw [lowByte, BitVec.extractLsb'_xor, hb, BitVec.xor_comm]
  rfl

theorem nextAcc_entry_eq_step1Times (b : Byte) (acc : Word) :
    nextAcc (entry (tableIndex b acc)) acc = step1Times 8 (acc ^^^ b.setWidth 32) := by
  rw [step1Times_eight, lowByte_xor_setWidth, BitVec.ushiftRight_xor_distrib, setWidth_shiftRight_eight,
    BitVec.xor_zero, nextAcc]

/-- Settles O47: by R56 (f), the byte reaching the low byte alone. -/
theorem byteAgreesWithBitSerialDivision : Obligations.ByteAgreesWithBitSerialDivision := by
  refine ⟨nextAcc_entry_eq_step1Times, fun s b hb ht hd => ?_⟩
  rw [exec_byte_seeded hb ht hd, nextAcc_entry_eq_step1Times, State.setAcc]

/-- Only zero steps to zero: bit 31 tells that bit 0 was zero, and then the other bits were only shifted. -/
theorem eq_zero_of_step1_eq_zero {r : Word} (h : step1 r = 0#32) : r = 0#32 := by
  have hbit : r.getLsbD 0 = false := by
    rw [← step1_getLsbD_top, h]
    rfl
  apply BitVec.eq_of_getLsbD_eq
  intro j _
  cases j with
  | zero => exact hbit
  | succ j =>
    have hshift : r >>> 1 = 0#32 := (step1_of_even hbit).symm.trans h
    rw [Nat.add_comm j 1, ← BitVec.getLsbD_ushiftRight, hshift, BitVec.getLsbD_zero, BitVec.getLsbD_zero]

/-- The division step loses nothing: it is linear with a trivial kernel. -/
theorem step1_injective : Function.Injective step1 := by
  intro a b h
  apply BitVec.xor_eq_zero_iff.1
  apply eq_zero_of_step1_eq_zero
  rw [step1_xor, h, BitVec.xor_self]

theorem step1Times_injective (k : Nat) : Function.Injective (step1Times k) := by
  induction k with
  | zero => exact fun _ _ h => h
  | succ k ih => exact fun _ _ h => step1_injective (ih h)

/-- R65: for a fixed byte no two accumulators are folded alike. -/
theorem foldByte_injective (b : Byte) :
    Function.Injective (fun acc : Word => nextAcc (entry (tableIndex b acc)) acc) := by
  intro acc acc' h
  simp only [nextAcc_entry_eq_step1Times] at h
  exact (BitVec.xor_left_inj _).1 (step1Times_injective 8 h)

/-- R65: for a fixed accumulator no two bytes are folded alike, the entries being distinct (R56 (e)). -/
theorem byte_eq_of_foldByte_eq {acc : Word} {b b' : Byte}
    (h : nextAcc (entry (tableIndex b acc)) acc = nextAcc (entry (tableIndex b' acc)) acc) : b = b' := by
  have hentry : entry (tableIndex b acc) = entry (tableIndex b' acc) := (BitVec.xor_left_inj _).1 h
  have hindex : tableIndex b acc = tableIndex b' acc := eq_of_entry_top_eq (by rw [hentry])
  exact (BitVec.xor_left_inj _).1 hindex

/-- A byte equal to the low byte of ACC selects `entry(0)`, which is zero: ACC only shifts. -/
theorem nextAcc_of_lowByte (acc : Word) : nextAcc (entry (tableIndex (lowByte acc) acc)) acc = acc >>> 8 := by
  rw [tableIndex, BitVec.xor_self, entry_0x00, nextAcc, BitVec.zero_xor]

/-- Settles O28: the two maps by R56 (e) and R76, the faults by BYTE's check, the examples by evaluation. -/
theorem byteFoldsIntoAcc : Obligations.ByteFoldsIntoAcc := by
  refine ⟨encode_byte_toNat, fun arg harg i hi => ?_, fun s b hb ht hd => exec_byte_seeded hb ht hd b,
    fun s b hm => ⟨fun hb => checkedExec_byte_fault b hm (byteCheck_unbuilt hb),
      fun hb hd => checkedExec_byte_fault b hm (byteCheck_unseeded hb hd)⟩,
    fun _ => BitVec.zero_xor, by decide, nextAcc_of_lowByte, by decide, fun _ _ => nextAcc_topByte _ _,
    fun _ _ _ => byte_eq_of_foldByte_eq, fun b => Finite.injective_iff_bijective.1 (foldByte_injective b), by decide⟩
  rw [decode_byte_reserved harg] at hi
  cases hi

/-! The laws of `fold` and `update` (R70 to R73, R77). -/

theorem crcUpdate_eq_not (buf : List Byte) (seed : Word) : crcUpdate buf seed = ~~~crcFold (~~~seed) buf := by
  rw [crcUpdate, complementOut_eq_not, complementIn_eq_not]

theorem crcFold_append (c : Word) (x y : List Byte) : crcFold c (x ++ y) = crcFold (crcFold c x) y := by
  induction x generalizing c with
  | nil => rfl
  | cons b x ih => exact ih _

theorem crcUpdate_nil (seed : Word) : crcUpdate [] seed = seed := by
  rw [crcUpdate_eq_not, crcFold, BitVec.not_not]

/-- The complements between two chunks cancel (R73). -/
theorem crcUpdate_append (a b : List Byte) (seed : Word) :
    crcUpdate (a ++ b) seed = crcUpdate b (crcUpdate a seed) := by
  rw [crcUpdate, crcUpdate, crcUpdate, complementIn_complementOut, crcFold_append]

theorem crcUpdateChunks_eq (chunks : List (List Byte)) (seed : Word) :
    crcUpdateChunks chunks seed = crcUpdate chunks.flatten seed := by
  induction chunks generalizing seed with
  | nil => exact (crcUpdate_nil seed).symm
  | cons chunk chunks ih =>
    rw [List.flatten_cons, crcUpdate_append, ← ih]
    rfl

/-- Folding the same bytes keeps accumulators apart (R65, R77). -/
theorem crcFold_injective (buf : List Byte) : Function.Injective (fun c => crcFold c buf) := by
  induction buf with
  | nil => exact fun _ _ h => h
  | cons b buf ih => exact fun _ _ h => foldByte_injective b (ih h)

theorem crcUpdate_injective (buf : List Byte) : Function.Injective (crcUpdate buf) := by
  intro v v' h
  simp only [crcUpdate_eq_not, BitVec.not_inj] at h
  exact BitVec.not_inj.1 (crcFold_injective buf h)

/-- Settles O48: the changed byte sets the accumulators apart, and the bytes after it keep them apart. -/
theorem oneChangedByteChangesChecksum : Obligations.OneChangedByteChangesChecksum := by
  intro before after b b' seed hb h
  rw [crcUpdate_append, crcUpdate_append] at h
  simp only [crcUpdate_eq_not _ (crcUpdate before seed), BitVec.not_inj] at h
  exact hb (byte_eq_of_foldByte_eq (crcFold_injective after h))

/-- Settles O43: the two complements cancel. -/
theorem identityLaw : Obligations.IdentityLaw :=
  ⟨crcUpdate_nil, fun s seed => ⟨rfl, _, runInstrs_seed_read seed s, rfl⟩⟩

/-! Command lists: they always complete, and one that ends unmarked ran without a fault (R86). -/

theorem runInstrs_next (is : List Instr) (s : State) : ∃ t, runInstrs is s = .next t := by
  induction is generalizing s with
  | nil => exact ⟨s, rfl⟩
  | cons i is ih =>
    obtain ⟨u, hu⟩ := exec_next i s
    rw [runInstrs_cons_of_next is hu]
    exact ih u

/-- A command records at most one fault, behind the mark that stands. -/
theorem exec_faultMark {i : Instr} {s t : State} (h : exec i s = .next t) : ∃ f, t.faultMark = s.faultMark.or f := by
  obtain ⟨-, rfl⟩ | ⟨v, -, rfl⟩ | ⟨b, -, rfl⟩ | ⟨-, rfl⟩ | ⟨x, -, rfl⟩ := exec_cases h
  · exact ⟨none, by simp⟩
  · exact ⟨none, by simp⟩
  · exact ⟨s.byteCheck, by simp⟩
  · exact ⟨s.accCheck, by simp⟩
  · exact ⟨s.tableCheck, by simp⟩

theorem unmarked_of_exec_unmarked {i : Instr} {s t : State} (h : exec i s = .next t) (hm : t.faultMark = none) :
    s.faultMark = none := by
  obtain ⟨f, hf⟩ := exec_faultMark h
  rw [hf, Option.or_eq_none_iff] at hm
  exact hm.1

theorem unmarked_of_runInstrs_unmarked {is : List Instr} {s t : State} (h : runInstrs is s = .next t)
    (hm : t.faultMark = none) : s.faultMark = none := by
  induction is generalizing s with
  | nil => cases h; exact hm
  | cons i is ih =>
    obtain ⟨u, hu⟩ := exec_next i s
    rw [runInstrs_cons_of_next is hu] at h
    exact unmarked_of_exec_unmarked hu (ih h)

/-- A run that ends unmarked is a run under the stopping outcome. -/
theorem runChecked_of_unmarked {is : List Instr} {s t : State} (h : runInstrs is s = .next t)
    (hm : t.faultMark = none) : runChecked is s = .next t := by
  induction is generalizing s with
  | nil => exact h
  | cons i is ih =>
    obtain ⟨u, hu⟩ := exec_next i s
    rw [runInstrs_cons_of_next is hu] at h
    rw [runChecked_cons_of_next is hu (unmarked_of_runInstrs_unmarked h hm)]
    exact ih h

/-- Settles O41: the runs of UPDATE and of its bytes end with the mark they began with. -/
theorem updateCommandsComputeUpdate : Obligations.UpdateCommandsComputeUpdate := by
  refine ⟨fun _ => rfl, fun _ _ _ => rfl, crcUpdate_eq_not, fun s buf seed hb ht hm => ⟨?_, ?_⟩,
    fun s buf hb ht hd hm => ?_⟩
  · exact runChecked_of_unmarked (runInstrs_updateCommands hb ht seed buf) hm
  · rw [crcUpdate_eq_not, BitVec.not_not]
  · exact runChecked_of_unmarked (runInstrs_byteCommands hb ht hd buf) hm

/-! Responses are only appended, and no command looks at the ones before (R40, R73, R75). -/

theorem romRead_with_responses (s : State) (i : Byte) (rs : List Word) :
    State.romRead { s with responses := rs } i = ((s.romRead i).1, { (s.romRead i).2 with responses := rs }) := by
  have hstored : State.storedWord { s with responses := rs } i = s.storedWord i := rfl
  unfold State.romRead
  rw [hstored]
  cases s.storedWord i <;> rfl

theorem exec_with_responses {i : Instr} {s t : State} (h : exec i s = .next t) :
    ∃ out, t.responses = s.responses ++ out ∧
      ∀ rs, exec i { s with responses := rs } = .next { t with responses := rs ++ out } := by
  cases i with
  | init => cases h; exact ⟨[], by simp, fun rs => by rw [List.append_nil]; rfl⟩
  | seed v => cases h; exact ⟨[], by simp, fun rs => by rw [List.append_nil]; rfl⟩
  | byte b =>
    cases h
    refine ⟨[], by simp, fun rs => ?_⟩
    simp only [exec, execByte, romRead_with_responses, List.append_nil]
    rfl
  | read => cases h; exact ⟨[complementOut s.acc], rfl, fun _ => rfl⟩
  | romrd x =>
    cases h
    refine ⟨[(s.romRead x).1], by simp, fun rs => ?_⟩
    simp only [exec, execRomrd, romRead_with_responses]
    rfl

theorem runInstrs_with_responses {is : List Instr} {s t : State} (h : runInstrs is s = .next t) :
    ∃ out, t.responses = s.responses ++ out ∧
      ∀ rs, runInstrs is { s with responses := rs } = .next { t with responses := rs ++ out } := by
  induction is generalizing s with
  | nil =>
    cases h
    exact ⟨[], by simp, fun rs => by rw [List.append_nil]; rfl⟩
  | cons i is ih =>
    obtain ⟨u, hu⟩ := exec_next i s
    rw [runInstrs_cons_of_next is hu] at h
    obtain ⟨out, hout, hexec⟩ := exec_with_responses hu
    obtain ⟨outs, houts, hrun⟩ := ih h
    refine ⟨out ++ outs, by rw [houts, hout, List.append_assoc], fun rs => ?_⟩
    rw [runInstrs_cons_of_next is (hexec rs), hrun, List.append_assoc]

theorem seedAcc_acc_self {s : State} (hd : s.seeded = true) : s.seedAcc s.acc = s := by
  rw [State.seedAcc, ← hd]

/-- READ, then SEED of the word read, only responds that word. -/
theorem runInstrs_read_seed {s : State} (hd : s.seeded = true) (rest : List Instr) :
    runInstrs (.read :: .seed (~~~s.acc) :: rest) s = runInstrs rest (s.respond (~~~s.acc)) := by
  have hseed : exec (.seed (~~~s.acc)) (s.respond (~~~s.acc)) = .next (s.respond (~~~s.acc)) :=
    (exec_seed_not s.acc _).trans (congrArg _ (seedAcc_acc_self (s := s.respond (~~~s.acc)) hd))
  rw [runInstrs_cons_of_next _ (exec_read_seeded hd), runInstrs_cons_of_next _ hseed]

/-- Settles O44: the complements between chunks cancel, in the function and, by R75, in commands. -/
theorem chunkingEquivalence : Obligations.ChunkingEquivalence := by
  refine ⟨crcFold_append, crcUpdateChunks_eq, fun a b => crcUpdate_append a b 0, fun s t rest hd h => ?_⟩
  obtain ⟨out, hout, hrun⟩ := runInstrs_with_responses h
  refine ⟨out, hout, ?_⟩
  rw [runInstrs_read_seed hd, List.append_cons]
  exact hrun (s.responses ++ [~~~s.acc])

/-- Settles O46: the word read stays in the responses, and SEED undoes its complement. -/
theorem saveAndRestore : Obligations.SaveAndRestore := by
  intro s between hd
  obtain ⟨t, ht⟩ := runInstrs_next between (s.respond (~~~s.acc))
  obtain ⟨out, hout, -⟩ := runInstrs_with_responses ht
  have hread : t.responses.getD s.responses.length 0 = ~~~s.acc := by simp [hout]
  refine ⟨t, _, _, (runInstrs_cons_of_next between (exec_read_seeded hd)).trans ht, hread, rfl, exec_seed_not s.acc t,
    rfl, ?_⟩
  exact accValue_congr hd.symm fun _ => rfl

/-! A built table and a seeded ACC: what follows depends on the history through ACC alone (R32, R78). -/

/-- The table is built and holds `entry`, and `ACC` is `some` (R15, R20). -/
structure BuiltAndSeeded (s : State) : Prop where
  built : s.built = true
  holds : TableHolds s.table
  seeded : s.seeded = true

theorem exec_keeps_builtAndSeeded {i : Instr} {s t : State} (hs : BuiltAndSeeded s) (h : exec i s = .next t) :
    BuiltAndSeeded t := by
  refine ⟨exec_keeps_built h hs.built, ?_, exec_keeps_seeded h hs.seeded⟩
  obtain ⟨-, ht⟩ | ⟨-, ht⟩ := exec_table_cases h
  · rw [ht]; exact tableHolds_buildTable _
  · rw [ht]; exact hs.holds

/-- One command from two such states with equal ACCs. -/
theorem exec_of_same_acc (i : Instr) {s s' : State} (hs : BuiltAndSeeded s) (hs' : BuiltAndSeeded s')
    (ha : s.acc = s'.acc) :
    ∃ t t' out, exec i s = .next t ∧ exec i s' = .next t' ∧ t.acc = t'.acc ∧
      t.responses = s.responses ++ out ∧ t'.responses = s'.responses ++ out := by
  obtain ⟨hb, ht, hd⟩ := hs
  obtain ⟨hb', ht', hd'⟩ := hs'
  cases i with
  | init => exact ⟨_, _, [], rfl, rfl, ha, by simp, by simp⟩
  | seed v => exact ⟨_, _, [], rfl, rfl, rfl, by simp, by simp⟩
  | byte b =>
    exact ⟨_, _, [], exec_byte_seeded hb ht hd b, exec_byte_seeded hb' ht' hd' b, by simp [ha], by simp, by simp⟩
  | read =>
    exact ⟨_, _, [~~~s.acc], exec_read_seeded hd, exec_read_seeded hd', ha, rfl, by rw [ha]; rfl⟩
  | romrd x =>
    exact ⟨_, _, [entry x], exec_romrd_built_responds hb ht x, exec_romrd_built_responds hb' ht' x, ha, rfl, rfl⟩

/-- Settles O49, by induction on the commands. -/
theorem sameAccSameFuture : Obligations.SameAccSameFuture := by
  intro s s' is hb ht hb' ht' hd hd' ha
  have hs : BuiltAndSeeded s := ⟨hb, ht, hd⟩
  have hs' : BuiltAndSeeded s' := ⟨hb', ht', hd'⟩
  clear hb ht hb' ht' hd hd'
  induction is generalizing s s' with
  | nil => exact ⟨s, s', [], rfl, rfl, ha, by simp, by simp, rfl, rfl⟩
  | cons i is ih =>
    obtain ⟨u, u', out, hu, hu', hacc, hr, hr'⟩ := exec_of_same_acc i hs hs' ha
    obtain ⟨t, t', outs, ht, ht', htacc, htr, htr', hm, hm'⟩ :=
      ih u u' hacc (exec_keeps_builtAndSeeded hs hu) (exec_keeps_builtAndSeeded hs' hu')
    refine ⟨t, t', out ++ outs, (runInstrs_cons_of_next is hu).trans ht, (runInstrs_cons_of_next is hu').trans ht',
      htacc, ?_, ?_, hm.trans (exec_keeps_faultMark hu hs.built hs.seeded),
      hm'.trans (exec_keeps_faultMark hu' hs'.built hs'.seeded)⟩
    · rw [htr, hr, List.append_assoc]
    · rw [htr', hr', List.append_assoc]

/-! Hosts that present only legal words (R92). -/

theorem edgesLegal_cons {e : PortEdge} {es : List PortEdge} (h : edgesLegal (e :: es) = true) :
    (e.rst = false → e.cmdValid = true → ∃ i, decode e.word = .ok i) ∧ edgesLegal es = true := by
  rw [edgesLegal, List.all_cons, Bool.and_eq_true] at h
  obtain ⟨he, hes⟩ := h
  refine ⟨fun hr hv => ?_, hes⟩
  cases hd : decode e.word with
  | ok i => exact ⟨i, rfl⟩
  | error r => simp [hr, hv, hd] at he

/-- A legal edge has a next state, with the legal edges after it still to come. -/
theorem step_of_edgesLegal {s : State} (h : edgesLegal s.edges = true) :
    ∃ t, step s = .next t ∧ edgesLegal t.edges = true := by
  cases hs : s.edges with
  | nil => exact ⟨s, step_of_no_edges hs, h⟩
  | cons e es =>
    rw [hs] at h
    obtain ⟨hword, hes⟩ := edgesLegal_cons h
    obtain ⟨hr, -⟩ | ⟨hr, hv, hc, -⟩ | ⟨-, -, hhold⟩ := event_cases e
    · exact ⟨_, step_of_rst hs hr, hes⟩
    · obtain ⟨i, hi⟩ := hword hr hv
      obtain ⟨t, ht⟩ := exec_next i { s with edges := es }
      refine ⟨t, (step_of_command hs (event_of_accepted hr hv hc) hi).trans ht, ?_⟩
      rw [exec_keeps_edges ht]
      exact hes
    · exact ⟨_, step_of_hold hs hhold, hes⟩

/-- Settles O40, by induction on the number of steps. -/
theorem legalRunsNeverStop : Obligations.LegalRunsNeverStop := by
  intro s k
  induction k generalizing s with
  | zero => exact fun _ => ⟨s, rfl⟩
  | succ k ih =>
    intro h
    obtain ⟨u, hu, hlegal⟩ := step_of_edgesLegal h
    rw [run_succ_of_next k hu]
    exact ih u hlegal

end Sys2Proof.Proofs

/-! PROOFS. The exceptions' statements (60_exceptions.md): reserved words are refused, which fault a command reports, the
validity of `ACC` after a command list, and the sticky mark. -/

namespace Sys2Proof.Proofs

open Sys2Proof.Machine Sys2Proof.Safety Sys2Proof.Laws

/-! Reserved words (R46, R47, R83). -/

/-- R83's causes: a reserved opcode, or an argument bit set where the command asks for zero. -/
def IsReserved (w : CmdWord) : Prop :=
  opField w = 5 ∨ opField w = 6 ∨ opField w = 7 ∨
    ((opField w = 0 ∨ opField w = 3) ∧ argField w ≠ 0) ∨
    ((opField w = 2 ∨ opField w = 4) ∧ argHigh (argField w) ≠ 0)

theorem not_isReserved_of_decode {w : CmdWord} {i : Instr} (h : decode w = .ok i) : ¬IsReserved w := by
  obtain ⟨hop, harg⟩ := fields_of_decode h
  unfold IsReserved
  rw [hop, harg]
  cases i with
  | init => simp [opcodeOf, argumentOf]
  | seed v => simp [opcodeOf]
  | byte b => simp [opcodeOf, argumentOf]
  | read => simp [opcodeOf, argumentOf]
  | romrd x => simp [opcodeOf, argumentOf]

theorem decode_of_isReserved {w : CmdWord} (h : IsReserved w) : ∃ r, decode w = .error r := by
  cases hd : decode w with
  | ok i => exact absurd h (not_isReserved_of_decode hd)
  | error r => exact ⟨r, rfl⟩

@[simp] theorem refusalOf_eq (r : Reserved) : refusalOf r = .reservedEncoding := by
  cases r <;> rfl

theorem step_present_of_decode_error {w : CmdWord} {r : Reserved} (s : State) (h : decode w = .error r) :
    step (s.present w) = .refused .reservedEncoding := by
  simp only [step_of_accepting (present_edges s w), runWord, h, refusalOf_eq]

theorem checkedStep_of_refused {s : State} {r : Refusal} (h : step s = .refused r) : checkedStep s = .refused r := by
  simp only [checkedStep, h, stopAtMark]

/-- A run stops at a step that is refused. -/
theorem run_succ_of_refused {s : State} {r : Refusal} (k : Nat) (h : step s = .refused r) :
    Host.Core.run core (k + 1) s = .refused r := by
  simp only [Host.Core.run, show core.step s = .refused r from h]

/-- Settles O9: the word decodes to no command, and the first step decides the run. -/
theorem reservedEncodingsRefused : Obligations.ReservedEncodingsRefused := by
  intro s w hw
  obtain ⟨r, hr⟩ := decode_of_isReserved hw
  have hstep := step_present_of_decode_error s hr
  exact ⟨hstep, checkedStep_of_refused hstep, fun k => run_succ_of_refused k hstep⟩

/-! The check of each command, and the outcome it decides (R80, R85). -/

/-- The fault a command finds in a state, if any (R81, R82, R85). -/
def faultOf : Instr → State → Option Fault
  | .init, _ => none
  | .seed _, _ => none
  | .byte _, s => s.byteCheck
  | .read, s => s.accCheck
  | .romrd _, s => s.tableCheck

/-- A command records exactly the fault it finds, behind the mark that stands. -/
theorem exec_faultMark_eq {i : Instr} {s t : State} (h : exec i s = .next t) :
    t.faultMark = s.faultMark.or (faultOf i s) := by
  obtain ⟨rfl, rfl⟩ | ⟨v, rfl, rfl⟩ | ⟨b, rfl, rfl⟩ | ⟨rfl, rfl⟩ | ⟨x, rfl, rfl⟩ := exec_cases h <;> simp [faultOf]

/-- With nothing recorded the checked outcome is the fault found, or else what the command answers. -/
theorem checkedExec_eq {i : Instr} {s : State} (hm : s.faultMark = none) :
    checkedExec i s = (faultOf i s).elim (exec i s) .fault := by
  obtain ⟨t, ht⟩ := exec_next i s
  have hmark := exec_faultMark_eq ht
  rw [hm, Option.none_or] at hmark
  cases hf : faultOf i s with
  | none => exact (checkedExec_of_unmarked ht (hmark.trans hf)).trans ht.symm
  | some f => exact checkedExec_of_marked ht (hmark.trans hf)

theorem checkedExec_eq_fault_iff {i : Instr} {s : State} {f : Fault} (hm : s.faultMark = none) :
    checkedExec i s = .fault f ↔ faultOf i s = some f := by
  obtain ⟨t, ht⟩ := exec_next i s
  rw [checkedExec_eq hm, ht]
  cases faultOf i s <;> simp

theorem checkedExec_ne_refused (i : Instr) (s : State) (r : Refusal) : checkedExec i s ≠ .refused r := by
  obtain ⟨t, ht⟩ := exec_next i s
  cases hm : t.faultMark with
  | none => simp [checkedExec_of_unmarked ht hm]
  | some f => simp [checkedExec_of_marked ht hm]

theorem checkedExec_eq_exec {i : Instr} {s : State} (hm : s.faultMark = none) (h : ∀ f, checkedExec i s ≠ .fault f) :
    checkedExec i s = exec i s := by
  have hnone : faultOf i s = none :=
    Option.eq_none_iff_forall_ne_some.2 fun f hf => h f ((checkedExec_eq_fault_iff hm).2 hf)
  rw [checkedExec_eq hm, hnone, Option.elim_none]

theorem tableCheck_eq_some {s : State} {f : Fault} :
    s.tableCheck = some f ↔ s.built = false ∧ .useBeforeInit = f := by
  simp [State.tableCheck]

theorem accCheck_eq_some {s : State} {f : Fault} : s.accCheck = some f ↔ s.seeded = false ∧ .useBeforeSeed = f := by
  simp [State.accCheck]

/-- R85's order within BYTE: the accumulator is checked where the table's check passes. -/
theorem byteCheck_eq_some {s : State} {f : Fault} :
    s.byteCheck = some f ↔
      (s.built = false ∧ .useBeforeInit = f) ∨ (s.built = true ∧ s.seeded = false ∧ .useBeforeSeed = f) := by
  rw [State.byteCheck, Option.or_eq_some_iff, tableCheck_eq_some, tableCheck_eq_none, accCheck_eq_some]

/-- R81: the commands that read the table, before it is built. -/
theorem faultOf_eq_useBeforeInit {i : Instr} {s : State} :
    faultOf i s = some .useBeforeInit ↔ s.built = false ∧ ∃ b, i = .byte b ∨ i = .romrd b := by
  cases i with
  | init => simp [faultOf]
  | seed v => simp [faultOf]
  | byte b => simp [faultOf, byteCheck_eq_some]
  | read => simp [faultOf, accCheck_eq_some]
  | romrd x => simp [faultOf, tableCheck_eq_some]

/-- R82, R85: the commands that read `ACC` before it is seeded, BYTE only where the table's check passes. -/
theorem faultOf_eq_useBeforeSeed {i : Instr} {s : State} :
    faultOf i s = some .useBeforeSeed ↔ s.seeded = false ∧ (i = .read ∨ (s.built = true ∧ ∃ b, i = .byte b)) := by
  cases i with
  | init => simp [faultOf]
  | seed v => simp [faultOf]
  | byte b => simp [faultOf, byteCheck_eq_some, and_comm]
  | read => simp [faultOf, accCheck_eq_some]
  | romrd x => simp [faultOf, tableCheck_eq_some]

/-- Settles O33: the fault a command finds is the one it reports; decoding and reset come before any command. -/
theorem faultsInTheirOrder : Obligations.FaultsInTheirOrder := by
  refine ⟨fun i s hm => ⟨?_, ?_, checkedExec_ne_refused i s, checkedExec_eq_exec hm⟩,
    fun s w r hr => checkedStep_of_refused (step_present_of_decode_error s hr), fun s e es => step_of_rst,
    fun b => checkedExec_byte_fault b rfl (byteCheck_unbuilt rfl)⟩
  · exact (checkedExec_eq_fault_iff hm).trans faultOf_eq_useBeforeInit
  · exact (checkedExec_eq_fault_iff hm).trans faultOf_eq_useBeforeSeed

/-! `ACC` is `none` until the first SEED (R20, R82). -/

@[simp] theorem accValue_eq_none {s : State} : s.accValue = none ↔ s.seeded = false := by
  simp [State.accValue]

theorem exec_unseeded_iff {i : Instr} {s t : State} (h : exec i s = .next t) :
    t.seeded = false ↔ s.seeded = false ∧ ∀ v, .seed v ≠ i := by
  obtain ⟨rfl, rfl⟩ | ⟨v, rfl, rfl⟩ | ⟨b, rfl, rfl⟩ | ⟨rfl, rfl⟩ | ⟨x, rfl, rfl⟩ := exec_cases h <;> simp

theorem runInstrs_unseeded_iff {is : List Instr} {s t : State} (h : runInstrs is s = .next t) :
    t.seeded = false ↔ s.seeded = false ∧ ∀ v, Instr.seed v ∉ is := by
  induction is generalizing s with
  | nil => cases h; simp
  | cons i is ih =>
    obtain ⟨u, hu⟩ := exec_next i s
    rw [runInstrs_cons_of_next is hu] at h
    rw [ih h, exec_unseeded_iff hu]
    simp only [List.mem_cons, not_or, forall_and, and_assoc, ne_eq]

/-- Settles O34: the checks of an unseeded accumulator, and induction on the commands since reset. -/
theorem useBeforeSeedFaults : Obligations.UseBeforeSeedFaults := by
  refine ⟨fun s ha hm => ?_, fun p is t h => ?_⟩
  · have hd := accValue_eq_none.1 ha
    exact ⟨checkedExec_read_unseeded hm hd, fun hb b => checkedExec_byte_fault b hm (byteCheck_unseeded hb hd)⟩
  · rw [accValue_eq_none, runInstrs_unseeded_iff h]
    exact and_iff_right rfl

/-! The mark is sticky (R86). -/

/-- The fault `f` is recorded, and no edge to come resets. -/
structure MarkedForGood (f : Fault) (s : State) : Prop where
  mark : s.faultMark = some f
  noReset : ∀ e ∈ s.edges, e.rst = false

theorem exec_keeps_mark {i : Instr} {s t : State} {f : Fault} (hm : s.faultMark = some f) (h : exec i s = .next t) :
    t.faultMark = some f := by
  rw [exec_faultMark_eq h, hm, Option.some_or]

theorem runInstrs_keeps_mark {is : List Instr} {s t : State} {f : Fault} (hm : s.faultMark = some f)
    (h : runInstrs is s = .next t) : t.faultMark = some f := by
  induction is generalizing s with
  | nil => cases h; exact hm
  | cons i is ih =>
    obtain ⟨u, hu⟩ := exec_next i s
    rw [runInstrs_cons_of_next is hu] at h
    exact ih (exec_keeps_mark hm hu) h

/-- Only a reset edge clears the mark. -/
theorem step_keeps_mark {s t : State} {f : Fault} (hm : s.faultMark = some f) (h : step s = .next t)
    (hno : ∀ e es, s.edges = e :: es → e.rst = false) : t.faultMark = some f := by
  obtain ⟨-, rfl⟩ | ⟨e, es, he, ⟨hv, -⟩ | ⟨-, rfl⟩ | ⟨w, i, -, -, hx⟩⟩ := step_cases h
  · exact hm
  · have hrst := rst_of_event_reset hv
    rw [hno e es he] at hrst
    cases hrst
  · exact hm
  · exact exec_keeps_mark (s := { s with edges := es }) hm hx

/-- A step takes at most one edge off the port. -/
theorem step_edges {s t : State} (h : step s = .next t) : t.edges = s.edges.tail := by
  obtain ⟨he, rfl⟩ | ⟨e, es, he, ⟨-, rfl⟩ | ⟨-, rfl⟩ | ⟨w, i, -, -, hx⟩⟩ := step_cases h
  · rw [he, List.tail_nil]
  · rw [he, applyReset_edges, List.tail_cons]
  · rw [he, List.tail_cons]
  · rw [he, exec_keeps_edges hx, List.tail_cons]

theorem step_keeps_markedForGood {s t : State} {f : Fault} (hs : MarkedForGood f s) (h : step s = .next t) :
    MarkedForGood f t := by
  obtain ⟨hm, hno⟩ := hs
  refine ⟨step_keeps_mark hm h fun e es he => hno e (he ▸ List.mem_cons_self), fun e he => hno e ?_⟩
  rw [step_edges h] at he
  exact List.mem_of_mem_tail he

/-- A run that answers a next state made its first step. -/
theorem run_succ_cases {k : Nat} {s t : State} (h : Host.Core.run core (k + 1) s = .next t) :
    ∃ u, step s = .next u ∧ Host.Core.run core k u = .next t := by
  cases hs : step s with
  | next u => exact ⟨u, rfl, (run_succ_of_next k hs).symm.trans h⟩
  | fault f => exact absurd hs (step_ne_fault s f)
  | refused r =>
    rw [run_succ_of_refused k hs] at h
    cases h

theorem run_keeps_markedForGood {k : Nat} {s t : State} {f : Fault} (hs : MarkedForGood f s)
    (h : Host.Core.run core k s = .next t) : MarkedForGood f t := by
  induction k generalizing s with
  | zero => cases h; exact hs
  | succ k ih =>
    obtain ⟨u, hu, hrun⟩ := run_succ_cases h
    exact ih (step_keeps_markedForGood hs hu) hrun

/-- Settles O37: by induction on the commands, and on the steps of a run. -/
theorem recordedFaultIsSticky : Obligations.RecordedFaultIsSticky := by
  refine fun s f hm => ⟨fun is t => runInstrs_keeps_mark hm, fun t => step_keeps_mark hm, fun k t hno hgood => ?_⟩
  obtain ⟨hrun, hnone⟩ := hgood
  have hmark := (run_keeps_markedForGood ⟨hm, hno⟩ hrun).mark
  rw [hnone] at hmark
  cases hmark

end Sys2Proof.Proofs
